-- ==== Sys2Proof/Word.lean ====
section
/-! DEFINITION. The widths the block works with: every datum is a byte, every command one 32-bit word. -/

namespace Sys2Proof

/-- A byte: every mirror entry, physical register number and value (R10, R54). -/
abbrev Byte := BitVec 8

/-- A command word `CMD[31:0]`, presented whole on the command port (R80). -/
abbrev Word := BitVec 32

end Sys2Proof
end

