-- ==== Sys2Proof/Syntax.lean ====
section
/-! DEFINITION. The twelve commands of the opcode table (R85), with operands as wide as their fields (R81, R83). -/

namespace Sys2Proof

/-- A command. `unit` and `op` are one bit, so a unit or operator index outside 0..1 cannot be written (V5 of R181);
`channel` is the 6-bit field `CHAN`, of which 36 to 63 are encodable and invalid (R81); `enable` is `VAL[0] = 1` (R83). -/
inductive Instr where
  /-- `begin()` (R161). -/
  | begin
  /-- `reset()` (R162). -/
  | reset
  /-- `getChipRegister(unit, reg)` (R131). -/
  | getchip (unit : BitVec 1) (reg : BitVec 9)
  /-- `setChipRegister(unit, reg, value)` (R132). -/
  | setchip (unit : BitVec 1) (reg : BitVec 9) (value : Byte)
  /-- The get of a channel register (R133). -/
  | getchan (base : Byte) (channel : BitVec 6)
  /-- `setChannelRegister(base, channel, value)` (R134). -/
  | setchan (base : Byte) (channel : BitVec 6) (value : Byte)
  /-- The get of an operator register (R135); `op` is the index 0 or 1. -/
  | getop (base : Byte) (channel : BitVec 6) (op : BitVec 1)
  /-- `setOperatorRegister(base, channel, op, value)` (R136). -/
  | setop (base : Byte) (channel : BitVec 6) (op : BitVec 1) (value : Byte)
  /-- `isOPL3Enabled(unit)` (R165). -/
  | q3u (unit : BitVec 1)
  /-- `isOPL3Enabled()` (R166). -/
  | q3
  /-- `setOPL3Enabled(unit, enable)` (R167). -/
  | set3u (unit : BitVec 1) (enable : Bool)
  /-- `setOPL3Enabled(enable)` (R168). -/
  | set3 (enable : Bool)
deriving DecidableEq, Repr

end Sys2Proof
end

