-- ==== Sys2Proof/Decode.lean ====
section
/-! DEFINITION. The command word (30_encoding.md): its fields, the decoder, total on every word, the opcode table of R85,
and the encoder. -/

namespace Sys2Proof

/-- The fields of a command word (R81). -/
structure Fields where
  opc : BitVec 4
  unit : BitVec 1
  oper : BitVec 1
  chan : BitVec 6
  mbz : BitVec 3
  reg : BitVec 9
  val : BitVec 8
deriving DecidableEq, Repr

/-- The fields of a word: OPC 31:28, UNIT 27, OPER 26, CHAN 25:20, MBZ 19:17, REG 16:8, VAL 7:0 (R81). -/
def splitWord (w : Word) : Fields where
  opc := w.extractLsb' 28 4
  unit := w.extractLsb' 27 1
  oper := w.extractLsb' 26 1
  chan := w.extractLsb' 20 6
  mbz := w.extractLsb' 17 3
  reg := w.extractLsb' 8 9
  val := w.extractLsb' 0 8

/-- The word with the given fields, by the formula of R81:
`OPC << 28 | UNIT << 27 | OPER << 26 | CHAN << 20 | REG << 8 | VAL`, here with the must-be-zero field at bit 17. -/
def joinWord (f : Fields) : Word :=
  f.opc.setWidth 32 <<< 28 ||| f.unit.setWidth 32 <<< 27 ||| f.oper.setWidth 32 <<< 26 ||| f.chan.setWidth 32 <<< 20
    ||| f.mbz.setWidth 32 <<< 17 ||| f.reg.setWidth 32 <<< 8 ||| f.val.setWidth 32

/-- What a word is: a command, or one of the two kinds of reserved encoding (R86, R87), by name. -/
inductive Decoded where
  /-- The word matches one row of R85. -/
  | command (i : Instr)
  /-- OPC is 0x0, 0xD, 0xE or 0xF (R86). -/
  | reservedOpcode
  /-- A known OPC with a non-zero bit in a must-be-zero position (R84). -/
  | mustBeZero
deriving DecidableEq, Repr

/-- `i` if the fields its format does not use are zero, else a reserved encoding (R84, R87). -/
def ifZero (unusedAreZero : Bool) (i : Instr) : Decoded := if unusedAreZero then .command i else .mustBeZero

/-- The base register field of formats H and O: `REG[7:0]` (R83). -/
def Fields.base (f : Fields) : Byte := f.reg.extractLsb' 0 8

/-- `REG[8]`, zero in every format but C (R84). -/
def Fields.regTop (f : Fields) : BitVec 1 := f.reg.extractLsb' 8 1

/-- `VAL[0] = 1` (R83). -/
def Fields.enable (f : Fields) : Bool := f.val.getLsbD 0

/-- `VAL[7:1]`, zero in `SET3U` and `SET3` (R84). -/
def Fields.valTop (f : Fields) : BitVec 7 := f.val.extractLsb' 1 7

/-- Decoding of the fields: the formats of R82, the operands of R83, the must-be-zero positions of R84, the opcode map of
R85. -/
def decodeFields (f : Fields) : Decoded :=
  match f.opc with
  | 0x1 => ifZero (f.unit == 0 && f.oper == 0 && f.chan == 0 && f.mbz == 0 && f.reg == 0 && f.val == 0) .begin
  | 0x2 => ifZero (f.unit == 0 && f.oper == 0 && f.chan == 0 && f.mbz == 0 && f.reg == 0 && f.val == 0) .reset
  | 0x3 => ifZero (f.oper == 0 && f.chan == 0 && f.mbz == 0 && f.val == 0) (.getchip f.unit f.reg)
  | 0x4 => ifZero (f.oper == 0 && f.chan == 0 && f.mbz == 0) (.setchip f.unit f.reg f.val)
  | 0x5 => ifZero (f.unit == 0 && f.oper == 0 && f.mbz == 0 && f.regTop == 0 && f.val == 0) (.getchan f.base f.chan)
  | 0x6 => ifZero (f.unit == 0 && f.oper == 0 && f.mbz == 0 && f.regTop == 0) (.setchan f.base f.chan f.val)
  | 0x7 => ifZero (f.unit == 0 && f.mbz == 0 && f.regTop == 0 && f.val == 0) (.getop f.base f.chan f.oper)
  | 0x8 => ifZero (f.unit == 0 && f.mbz == 0 && f.regTop == 0) (.setop f.base f.chan f.oper f.val)
  | 0x9 => ifZero (f.oper == 0 && f.chan == 0 && f.mbz == 0 && f.reg == 0 && f.val == 0) (.q3u f.unit)
  | 0xA => ifZero (f.unit == 0 && f.oper == 0 && f.chan == 0 && f.mbz == 0 && f.reg == 0 && f.val == 0) .q3
  | 0xB => ifZero (f.oper == 0 && f.chan == 0 && f.mbz == 0 && f.reg == 0 && f.valTop == 0) (.set3u f.unit f.enable)
  | 0xC => ifZero (f.unit == 0 && f.oper == 0 && f.chan == 0 && f.mbz == 0 && f.reg == 0 && f.valTop == 0)
      (.set3 f.enable)
  | _ => .reservedOpcode

/-- Decoding is total: every word is a command or a reserved encoding (R87). -/
def decode (w : Word) : Decoded := decodeFields (splitWord w)

/-- One row of the opcode table: a word `w` is the command when `w & mask = pattern` (R85). -/
structure OpcodeRow where
  mnemonic : String
  mask : Word
  pattern : Word
deriving DecidableEq, Repr

/-- The `mask` and `match` columns of R85. -/
def opcodeTable : Vector OpcodeRow 12 := #v[
  ⟨"BEGIN", 0xFFFFFFFF, 0x10000000⟩,
  ⟨"RESET", 0xFFFFFFFF, 0x20000000⟩,
  ⟨"GETCHIP", 0xF7FE00FF, 0x30000000⟩,
  ⟨"SETCHIP", 0xF7FE0000, 0x40000000⟩,
  ⟨"GETCHAN", 0xFC0F00FF, 0x50000000⟩,
  ⟨"SETCHAN", 0xFC0F0000, 0x60000000⟩,
  ⟨"GETOP", 0xF80F00FF, 0x70000000⟩,
  ⟨"SETOP", 0xF80F0000, 0x80000000⟩,
  ⟨"Q3U", 0xF7FFFFFF, 0x90000000⟩,
  ⟨"Q3", 0xFFFFFFFF, 0xA0000000⟩,
  ⟨"SET3U", 0xF7FFFFFE, 0xB0000000⟩,
  ⟨"SET3", 0xFFFFFFFE, 0xC0000000⟩]

/-- The place of an instruction's row in the opcode table. -/
def Instr.rowNumber : Instr → Fin 12
  | .begin => 0
  | .reset => 1
  | .getchip _ _ => 2
  | .setchip _ _ _ => 3
  | .getchan _ _ => 4
  | .setchan _ _ _ => 5
  | .getop _ _ _ => 6
  | .setop _ _ _ _ => 7
  | .q3u _ => 8
  | .q3 => 9
  | .set3u _ _ => 10
  | .set3 _ => 11

/-- The row of the opcode table an instruction belongs to. -/
def Instr.row (i : Instr) : OpcodeRow := opcodeTable[i.rowNumber]

/-- A base byte in the nine-bit `REG` field, `REG[8]` zero (R84). -/
def baseField (base : Byte) : BitVec 9 := base.setWidth 9

/-- The enable flag in the `VAL` field, `VAL[7:1]` zero (R84). -/
def enableField (enable : Bool) : BitVec 8 := (BitVec.ofBool enable).setWidth 8

/-- The fields of an instruction's word (R82 to R85); a field the format does not use is zero. -/
def encodeFields : Instr → Fields
  | .begin => ⟨0x1, 0, 0, 0, 0, 0, 0⟩
  | .reset => ⟨0x2, 0, 0, 0, 0, 0, 0⟩
  | .getchip unit reg => ⟨0x3, unit, 0, 0, 0, reg, 0⟩
  | .setchip unit reg value => ⟨0x4, unit, 0, 0, 0, reg, value⟩
  | .getchan base channel => ⟨0x5, 0, 0, channel, 0, baseField base, 0⟩
  | .setchan base channel value => ⟨0x6, 0, 0, channel, 0, baseField base, value⟩
  | .getop base channel op => ⟨0x7, 0, op, channel, 0, baseField base, 0⟩
  | .setop base channel op value => ⟨0x8, 0, op, channel, 0, baseField base, value⟩
  | .q3u unit => ⟨0x9, unit, 0, 0, 0, 0, 0⟩
  | .q3 => ⟨0xA, 0, 0, 0, 0, 0, 0⟩
  | .set3u unit enable => ⟨0xB, unit, 0, 0, 0, 0, enableField enable⟩
  | .set3 enable => ⟨0xC, 0, 0, 0, 0, 0, enableField enable⟩

/-- The word of an instruction. Every instruction has one. -/
def encode (i : Instr) : Word := joinWord (encodeFields i)

/-- The host's question about one table word: the instruction decoded from the word whose low `nbits` bits are `w` and
whose other bits are zero. Bit 0 of the table is bit 0 of the command word, which is presented in parallel (R54, R80). -/
def decodeTableWord (nbits w : Nat) : Option Instr :=
  match decode (BitVec.ofNat 32 (w % 2 ^ nbits)) with
  | .command i => some i
  | .reservedOpcode => none
  | .mustBeZero => none

end Sys2Proof
end

