-- ==== Sys2Proof/Machine/Flags.lean ====
section
/-! DEFINITION. The block has no flags, condition codes or predicates (R29), so no command computes one. What it does
compute on bits is here: the two masked fields it interprets (R34), read by the queries and written by the mode commands,
and the Boolean of a query as a response byte (R89). -/

namespace Sys2Proof.Machine

/-- Whether a masked field is not zero: `(v & mask) != 0` (R165, R166). -/
def fieldSet (v mask : Byte) : Bool := v &&& mask != 0

/-- The byte with a masked field set or cleared and every other bit kept:
`(old & ~mask) | (enable ? mask : 0x00)` (R164). -/
def withField (old mask : Byte) (enable : Bool) : Byte := (old &&& ~~~mask) ||| (if enable then mask else 0)

/-- A Boolean on the response port: 0x01 for true, 0x00 for false (R89). -/
def boolByte (b : Bool) : Byte := if b then 0x01 else 0x00

end Sys2Proof.Machine
end

