-- ==== Sys2Proof/Config.lean ====
section
/-! DEFINITION. The open parameters of R8. The fixed ones of R7 (2 units, 2 banks of 9 channels, 36 channels, 2 operators,
5 chip-wide registers, 3 channel bases, 5 operator bases) are written into the address mapper. -/

namespace Sys2Proof

/-- One admissible choice of the open parameters of R8; its checks P1 to P6 (R9) are in WellFormed.lean. -/
structure Config where
  /-- `CHIP_REGS`: the five chip-wide register numbers, by position. -/
  chipRegs : Vector (BitVec 9) 5
  /-- `OP_SPACING(op, cm)`: row `op` (0 or 1), entry `cm` (channel-in-bank, 0 to 8). -/
  opSpacing : Vector (Vector Nat 9) 2
  /-- `OPL3_EN_REG`: the chip-wide register that holds the extended-mode bit. -/
  opl3EnReg : BitVec 9
  /-- `OPL3_EN_MASK`: the extended-mode bit in it. -/
  opl3EnMask : Byte
  /-- `PAN_BASE`: the channel base register that holds the stereo-panning bits. -/
  panBase : Byte
  /-- `PAN_MASK`: the two stereo-panning bits in it. -/
  panMask : Byte
  /-- `RESET_TICKS`: the length of the reset pulse asked of the scheduler, in ticks. -/
  resetTicks : Nat
deriving DecidableEq, Repr

/-- The spec's defaults of R8, marked there as general knowledge and not in its source. PRESUMED, unsafe (log 4): the
only statement that rests on these values is PowerOnMeetsInvariants, that they pass the checks of R9. -/
def Config.default : Config where
  chipRegs := #v[0x001, 0x104, 0x105, 0x008, 0x0BD]
  opSpacing := #v[#v[0, 0, 0, 5, 5, 5, 10, 10, 10], #v[3, 3, 3, 8, 8, 8, 13, 13, 13]]
  opl3EnReg := 0x105
  opl3EnMask := 0x01
  panBase := 0xC0
  panMask := 0x30
  resetTicks := 1

/-- `T_SEL_SETTLE`: how long the selector line needs to settle, a duration the spec does not give and no rule depends on
(R8, R152, R219). No definition of the model reads it (log 17). -/
opaque Config.selSettle : Nat

end Sys2Proof
end

