-- ==== Sys2Proof/Machine/Operands.lean ====
section
/-! DEFINITION. The AddressMapper (40_address_mapper.md): pure arithmetic from a logical register to its mirror entry and
to its physical bank and register byte. It reads its arguments and the parameters only (R122). -/

namespace Sys2Proof.Machine

/-- Which of the three mirror arrays a port is routed to: the class select of R25 and R138. -/
inductive MirrorClass where
  | chipm
  | chanm
  | opm
deriving DecidableEq, Repr

/-- The number of entries of each array (R7, R21, R22, R23). -/
def mirrorSize : MirrorClass → Nat
  | .chipm => 10
  | .chanm => 108
  | .opm => 360

/-- One of the 478 logical registers (R31), its register or base given by position, so that an invalid logical address
cannot be written: `chip(u, CHIP_REGS[pos])`, `chan(CHAN_BASES[pos], c)`, `op(OP_BASES[pos], c, o)`. -/
inductive LogicalReg where
  | chip (unit : BitVec 1) (pos : Fin 5)
  | chan (pos : Fin 3) (channel : Fin 36)
  | op (pos : Fin 5) (channel : Fin 36) (oper : BitVec 1)
deriving DecidableEq, Repr

/-- `CHAN_BASES[pos]` (R7). -/
def chanBase : Fin 3 → Byte
  | 0 => 0xA0
  | 1 => 0xB0
  | 2 => 0xC0

/-- `OP_BASES[pos]` (R7). -/
def opBase : Fin 5 → Byte
  | 0 => 0x20
  | 1 => 0x40
  | 2 => 0x60
  | 3 => 0x80
  | 4 => 0xE0

/-- `posChip(r)` (R110): the position of `r` in `CHIP_REGS`, compared on all nine bits; none if it is not there. -/
def posChip (cfg : Config) (r : BitVec 9) : Option (Fin 5) :=
  if cfg.chipRegs[0] = r then some 0
  else if cfg.chipRegs[1] = r then some 1
  else if cfg.chipRegs[2] = r then some 2
  else if cfg.chipRegs[3] = r then some 3
  else if cfg.chipRegs[4] = r then some 4
  else none

/-- `posChan(b)` (R111). -/
def posChan (b : Byte) : Option (Fin 3) :=
  if b = 0xA0 then some 0
  else if b = 0xB0 then some 1
  else if b = 0xC0 then some 2
  else none

/-- `posOp(b)` (R112): 0xE0 follows 0x80 directly. -/
def posOp (b : Byte) : Option (Fin 5) :=
  if b = 0x20 then some 0
  else if b = 0x40 then some 1
  else if b = 0x60 then some 2
  else if b = 0x80 then some 3
  else if b = 0xE0 then some 4
  else none

/-- `chipIndex(unit, reg)` (R113), the chip-wide register given by its `chipOffset`. -/
def chipIndex (unit : BitVec 1) (pos : Fin 5) : Nat := unit.toNat * 5 + pos.val

/-- `channelOffset(base, channel)` (R114), the base given by its position. -/
def channelOffset (pos : Fin 3) (channel : Nat) : Nat := channel * 3 + pos.val

/-- `operatorOffset(base, channel, op)` (R115), the base given by its position. -/
def operatorOffset (pos : Fin 5) (channel : Nat) (op : BitVec 1) : Nat :=
  channel * 10 + op.toNat * 5 + pos.val

/-- `chipBank(unit, reg)` (R116): `(unit << 1) | reg[8]`. -/
def chipBank (unit : BitVec 1) (reg : BitVec 9) : BitVec 2 :=
  (unit.setWidth 2 <<< 1) ||| (reg.extractLsb' 8 1).setWidth 2

/-- `chipPhysReg(reg)` (R116): `reg[7:0]`. -/
def chipPhysReg (reg : BitVec 9) : Byte := reg.extractLsb' 0 8

/-- `bankOf(channel)` (R117): `floor(channel / 9) mod 4`. -/
def bankOf (channel : Nat) : BitVec 2 := BitVec.ofNat 2 (channel / 9 % 4)

/-- `chanPhysReg(base, channel)` (R117): `base + (channel mod 9)`. -/
def chanPhysReg (base : Byte) (channel : Nat) : Byte := base + BitVec.ofNat 8 (channel % 9)

/-- `OP_SPACING(op, channel mod 9)`. -/
def spacingOf (cfg : Config) (op : BitVec 1) (channel : Nat) : Nat :=
  (cfg.opSpacing[op.toNat]'(by have := op.isLt; omega))[channel % 9]'(Nat.mod_lt _ (by decide))

/-- `opPhysReg(base, channel, op)` (R118): `base + cm + OP_SPACING(op, cm)` with `cm = channel mod 9`. For a configuration
that fails check P5 the byte addition wraps (log 18). -/
def opPhysReg (cfg : Config) (base : Byte) (channel : Nat) (op : BitVec 1) : Byte :=
  base + BitVec.ofNat 8 (channel % 9) + BitVec.ofNat 8 (spacingOf cfg op channel)

/-- `physicalUnit(bank)` (R119): bit 1 of the bank. -/
def physicalUnit (bank : BitVec 2) : BitVec 1 := bank.extractLsb' 1 1

/-- `bankBit(bank)` (R119): bit 0, the within-chip bank bit. -/
def bankBit (bank : BitVec 2) : BitVec 1 := bank.extractLsb' 0 1

/-- `unitOfChannel(c)` (R123). -/
def unitOfChannel (channel : Nat) : BitVec 1 := physicalUnit (bankOf channel)

/-- The array a logical register's entry is in (R138). -/
def LogicalReg.cls : LogicalReg → MirrorClass
  | .chip _ _ => .chipm
  | .chan _ _ => .chanm
  | .op _ _ _ => .opm

/-- The index of its entry in that array (R21, R22, R23). -/
def LogicalReg.index : LogicalReg → Nat
  | .chip unit pos => chipIndex unit pos
  | .chan pos channel => channelOffset pos channel
  | .op pos channel oper => operatorOffset pos channel oper

/-- The 2-bit bank its physical write goes to (R116, R117, R118). -/
def LogicalReg.bank (cfg : Config) : LogicalReg → BitVec 2
  | .chip unit pos => chipBank unit cfg.chipRegs[pos]
  | .chan _ channel => bankOf channel
  | .op _ channel _ => bankOf channel

/-- The physical register byte its physical write goes to (R116, R117, R118). -/
def LogicalReg.physReg (cfg : Config) : LogicalReg → Byte
  | .chip _ pos => chipPhysReg cfg.chipRegs[pos]
  | .chan pos channel => chanPhysReg (chanBase pos) channel
  | .op pos channel oper => opPhysReg cfg (opBase pos) channel oper

/-- Where the physical location (unit, bank bit, register byte) of R53 lies in the flattened ghost file, 0 to 1023. -/
def physKey (unit bankBit : BitVec 1) (reg : Byte) : Nat :=
  unit.toNat * 512 + bankBit.toNat * 256 + reg.toNat

/-- `phys(L)` of R33: the physical location of a logical register. -/
def LogicalReg.physKey (cfg : Config) (r : LogicalReg) : Nat :=
  Machine.physKey (physicalUnit (r.bank cfg)) (bankBit (r.bank cfg)) (r.physReg cfg)

/-- Both unit numbers, in the order the controller's loops take them. -/
def units : List (BitVec 1) := [0, 1]

/-- Channels 0 to 35, ascending. -/
def allChannels : List (Fin 36) := List.finRange 36

/-- Channels `18 * unit` to `18 * unit + 17`, ascending: those that belong to the unit (R123, R167). -/
def channelsOfUnit (unit : BitVec 1) : List (Fin 36) :=
  allChannels.filter fun c => unitOfChannel c = unit

/-- The ten chip-wide registers, unit by unit, in position order (R162, phase 2). -/
def chipRegisters : List LogicalReg :=
  units.flatMap fun u => ([0, 1, 2, 3, 4] : List (Fin 5)).map fun p => .chip u p

/-- The thirteen registers of one channel in the order of R162: three channel registers, then five of operator index 0,
then five of operator index 1. -/
def registersOfChannel (c : Fin 36) : List LogicalReg :=
  (([0, 1, 2] : List (Fin 3)).map fun p => .chan p c)
    ++ ([0, 1] : List (BitVec 1)).flatMap fun o =>
        ([0, 1, 2, 3, 4] : List (Fin 5)).map fun p => .op p c o

/-- The 478 logical registers in the order in which `RESET` writes them (R162, phase 2; D19, log 10). -/
def allRegisters : List LogicalReg := chipRegisters ++ allChannels.flatMap registersOfChannel

end Sys2Proof.Machine
end

