-- ==== Sys2Proof/Machine/State.lean ====
section
/-! DEFINITION. The state of the block (10_state.md), of the ghost file beside it, and of the model's record of what
passes its boundary; the reasons a step can stop; the state at power-on. -/

namespace Sys2Proof.Machine

/-- The two states of the lifecycle, `STATE` (R26). -/
inductive Lifecycle where
  | uninitialized
  | ready
deriving DecidableEq, Repr

/-- One event of the output event trace (R11): one call of a primitive of the external collaborator. -/
inductive Event where
  /-- `selectorPin.set(level)`. -/
  | sel (level : BitVec 1)
  /-- `resetPin.set(level)`; 0 is asserted. -/
  | rst (level : BitVec 1)
  /-- `scheduler.delay(ticks)`: at least so many scheduling ticks. -/
  | delay (ticks : Nat)
  /-- `transportWrite(bankBit, reg, value)`. -/
  | tw (bankBit : BitVec 1) (reg : Byte) (value : Byte)
  /-- The hand-over to the collaborator for base transport setup. -/
  | tsetup
deriving DecidableEq, Repr

/-- A byte array by index, sparse: (index, byte) pairs, indices strictly rising. An index that is not listed holds no
value: an unwritten mirror entry (R210) or an unknown chip register (R32). -/
abbrev Memory := List Host.Cell

/-- Everything the model holds. `lifecycle`, `sel`, `rstN`, `chipm`, `chanm`, `opm` are the block's own state, "exactly
this state and no other" (R20); `phys` is the ghost file of the environment (R32); `commands`, `traceRev` and `responses`
record what passes the block's ports (R225; log 1, log 2); `cfg` holds the open parameters (R8; log 3). -/
structure State where
  /-- The open parameters; fixed for the machine, no command writes them. -/
  cfg : Config
  /-- `STATE` (R26). -/
  lifecycle : Lifecycle
  /-- `SEL`: the level last driven on the selector line; 0 selects unit 0 (R27). -/
  sel : BitVec 1
  /-- `RST_N`: the level last driven on the reset line, active low (R28). -/
  rstN : BitVec 1
  /-- `CHIPM`: 10 bytes (R21). -/
  chipm : Memory
  /-- `CHANM`: 108 bytes (R22). -/
  chanm : Memory
  /-- `OPM`: 360 bytes (R23). -/
  opm : Memory
  /-- Ghost `PHYS`, flattened by `physKey`: what was last delivered to each register of each chip (R32). -/
  phys : Memory
  /-- The command words the host has issued and the block has not yet taken, oldest first (R60, R225). -/
  commands : List Word
  /-- The output event trace (R11, R62), newest first, so that appending an event is one cons; `State.trace` reads it in
  the order of emission. -/
  traceRev : List Event
  /-- The bytes put on the response port, oldest first (R89, R225). -/
  responses : List Byte
deriving DecidableEq, Repr

/-- The output event trace in the order of emission (R11). -/
def State.trace (s : State) : List Event := s.traceRev.reverse

/-- The violations V1 to V9 of R181. On hardware the behaviour is undefined; the model stops with the code, with no next
state (R182). All are safe: the model stops where hardware goes on. -/
inductive Fault where
  /-- V1: `reg` is not in `CHIP_REGS`. Raised by GETCHIP and SETCHIP (and by Q3U, Q3, SET3U, SET3 under a configuration
  that fails check P2, log 18). Safe. -/
  | unrecognizedChipReg
  /-- V2: `base` is not a channel base. Raised by GETCHAN and SETCHAN (and by SET3U, SET3 under a configuration that fails
  check P3, log 18). Safe. -/
  | unrecognizedChannelBase
  /-- V3: `base` is not an operator base. Raised by GETOP and SETOP. Safe. -/
  | unrecognizedOperatorBase
  /-- V4: channel of 36 or more. Raised by GETCHAN, SETCHAN, GETOP and SETOP. Safe. -/
  | channelOutOfRange
  /-- V5: operator index or unit outside 0..1. Raised by nothing: the 1-bit operands cannot hold such a value; listed as
  R181 lists it. Safe. -/
  | operatorOrUnitOutOfRange
  /-- V6: a reserved encoding. Raised by the decoder, in `step`. Safe. -/
  | illegalCommand
  /-- V7: a command other than BEGIN while Uninitialized. Safe. -/
  | notReady
  /-- V8: BEGIN while Ready. Safe. -/
  | alreadyReady
  /-- V9: a read of a mirror entry that nothing has written since power-on. Raised by GETCHIP, GETCHAN, GETOP, Q3U, Q3,
  SET3U and SET3. Safe. -/
  | unwrittenMirrorRead
deriving DecidableEq, Repr

/-- Why an instruction has no meaning. -/
inductive Refusal where
  /-- An instruction of the table the model has no meaning for. Raised by an arm of `exec` only; no arm is left that
  does. Safe. -/
  | notModelled (mnemonic : String)
deriving DecidableEq, Repr

/-- Power-on (R210): Uninitialized, every mirror entry unwritten, every ghost entry unknown, nothing issued, emitted or
answered. The spec gives the two pin latches no value here: `sel` is 0, the selector's default level, and `rstN` is 1, the
reset line's idle level (DESIGN CHOICE, unsafe: log 5, log 6). The parameters are the defaults of R8 (PRESUMED: log 4). -/
def State.reset : State where
  cfg := Config.default
  lifecycle := .uninitialized
  sel := 0
  rstN := 1
  chipm := []
  chanm := []
  opm := []
  phys := []
  commands := []
  traceRev := []
  responses := []

end Sys2Proof.Machine
end

