-- ==== Sys2Proof/Machine/Ops.lean ====
section
/-! DEFINITION. The named operations every command is written over: byte arrays, the event primitives of R11, the ports of
the shadow register file (R25), the recognition of a logical address (R124, R183), and the command port. The block takes no
exception and returns from none (R180, R185, R186), so no such operation is here: a violation is a fault. -/

namespace Sys2Proof.Machine

/-- What an instruction answers. -/
abbrev Result := Host.Outcome State Fault Refusal

/-- The byte listed at an index, if any. -/
def Memory.read : Memory → Nat → Option Byte
  | [], _ => none
  | (k, v) :: rest, a => if a = k then some v else Memory.read rest a

/-- The array with a byte at an index, in the same canonical form: past the smaller indices, in place of an equal one,
before the larger ones. The comparisons are `k < a` and `a = k` in the form the kernel evaluates fastest. -/
def Memory.write : Memory → Nat → Byte → Memory
  | [], a, b => [(a, b)]
  | (k, v) :: rest, a, b =>
    bif Nat.blt k a then (k, v) :: Memory.write rest a b
    else bif Nat.beq a k then (a, b) :: rest
    else (a, b) :: (k, v) :: rest

/-- The canonical form: indices strictly rising from `lo` on and below `size`. -/
def Memory.risesFrom (size : Nat) : Nat → Memory → Bool
  | _, [] => true
  | lo, (k, _) :: rest => decide (lo ≤ k) && decide (k < size) && Memory.risesFrom size (k + 1) rest

/-- A byte array of `size` entries in canonical form. An unlisted index holds no value, so no listed entry can equal one. -/
def Memory.wf (size : Nat) (m : Memory) : Bool := Memory.risesFrom size 0 m

/-- `emit` appends one event to the output event trace (R11). -/
def record (e : Event) (s : State) : State := { s with traceRev := e :: s.traceRev }

/-- `emit SEL(b)`: drive the selector line and latch the level (R11, R27). -/
def emitSel (level : BitVec 1) (s : State) : State := record (.sel level) { s with sel := level }

/-- What a level on the reset line does to the ghost file: when it is asserted (0) every entry of both units becomes
unknown (R32 (b)). -/
def physAfterRst (level : BitVec 1) (phys : Memory) : Memory := if level = 0 then [] else phys

/-- `emit RST(b)`: drive the reset line and latch the level (R11, R28). -/
def emitRst (level : BitVec 1) (s : State) : State :=
  record (.rst level) { s with rstN := level, phys := physAfterRst level s.phys }

/-- `emit DELAY(n)` (R11). -/
def emitDelay (ticks : Nat) (s : State) : State := record (.delay ticks) s

/-- `emit TW(a1, reg, val)`: the chip the selector line points at takes the write (R11, R32 (a), R151). It always
succeeds (R69, log 16). -/
def emitTw (bankBit : BitVec 1) (reg value : Byte) (s : State) : State :=
  record (.tw bankBit reg value) { s with phys := s.phys.write (physKey s.sel bankBit reg) value }

/-- `emit TSETUP` (R11). -/
def emitTsetup (s : State) : State := record .tsetup s

/-- `respond(v)`: the command's return value (R11, R89). -/
def respond (v : Byte) (s : State) : State := { s with responses := s.responses ++ [v] }

/-- `PhysWrite(bank, reg, value)`: the selector, then the transport (R150). -/
def physWrite (bank : BitVec 2) (reg value : Byte) (s : State) : State :=
  emitTw (bankBit bank) reg value (emitSel (physicalUnit bank) s)

/-- The read port of the shadow register file (R25): `none` where the entry is unwritten. -/
def readPort (cls : MirrorClass) (index : Nat) (s : State) : Option Byte :=
  match cls with
  | .chipm => s.chipm.read index
  | .chanm => s.chanm.read index
  | .opm => s.opm.read index

/-- The write port of the shadow register file (R25). -/
def writePort (cls : MirrorClass) (index : Nat) (value : Byte) (s : State) : State :=
  match cls with
  | .chipm => { s with chipm := s.chipm.write index value }
  | .chanm => { s with chanm := s.chanm.write index value }
  | .opm => { s with opm := s.opm.write index value }

/-- The mirror entry of a logical register (R138). -/
def mirrorRead (r : LogicalReg) (s : State) : Option Byte := readPort r.cls r.index s

/-- What was last delivered to the physical register of a logical register, if known (R32, R33). -/
def physRead (r : LogicalReg) (s : State) : Option Byte := s.phys.read (r.physKey s.cfg)

/-- The two effects of a set, in order: the mirror entry, then exactly one physical write of the same value, also when the
value is the one the mirror holds (R61, R130). -/
def writeReg (r : LogicalReg) (value : Byte) (s : State) : State :=
  physWrite (r.bank s.cfg) (r.physReg s.cfg) value (writePort r.cls r.index value s)

/-- The chip-wide register a command names, or V1 (R110, R131). -/
def locateChip (cfg : Config) (unit : BitVec 1) (reg : BitVec 9) : Except Fault LogicalReg :=
  match posChip cfg reg with
  | some pos => .ok (.chip unit pos)
  | none => .error .unrecognizedChipReg

/-- The channel register a command names: V4 is checked first, then V2 (R133, R183). -/
def locateChan (base : Byte) (channel : BitVec 6) : Except Fault LogicalReg :=
  if h : channel.toNat < 36 then
    match posChan base with
    | some pos => .ok (.chan pos ⟨channel.toNat, h⟩)
    | none => .error .unrecognizedChannelBase
  else .error .channelOutOfRange

/-- The operator register a command names: V4 is checked first, then V3 (R135, R183). -/
def locateOp (base : Byte) (channel : BitVec 6) (op : BitVec 1) : Except Fault LogicalReg :=
  if h : channel.toNat < 36 then
    match posOp base with
    | some pos => .ok (.op pos ⟨channel.toNat, h⟩ op)
    | none => .error .unrecognizedOperatorBase
  else .error .channelOutOfRange

/-- The byte of a logical register's mirror entry, or V9 where nothing has written it since power-on (R181). -/
def readEntry (r : LogicalReg) (s : State) : Except Fault Byte :=
  match mirrorRead r s with
  | some v => .ok v
  | none => .error .unwrittenMirrorRead

/-- The lifecycle check of every command but BEGIN, before all its other checks (R160, R183). -/
def whenReady (s : State) (k : Result) : Result :=
  match s.lifecycle with
  | .ready => k
  | .uninitialized => .fault .notReady

/-- A get of the located register (R130): respond with its entry, change nothing else, emit nothing. -/
def getLocated (located : Except Fault LogicalReg) (s : State) : Result :=
  match located with
  | .error f => .fault f
  | .ok r =>
    match readEntry r s with
    | .error f => .fault f
    | .ok v => .next (respond v s)

/-- A set of the located register (R130). -/
def setLocated (located : Except Fault LogicalReg) (value : Byte) (s : State) : Result :=
  match located with
  | .error f => .fault f
  | .ok r => .next (writeReg r value s)

/-- The command port: the oldest command word the host has issued, and the state with it taken (R60). -/
def takeCommand (s : State) : Option (Word × State) :=
  match s.commands with
  | [] => none
  | w :: rest => some (w, { s with commands := rest })

/-- The host has issued a word as the next command. -/
def issueNext (w : Word) (s : State) : State := { s with commands := w :: s.commands }

end Sys2Proof.Machine
end

