-- ==== Sys2Proof/Machine/Controller.lean ====
section
/-! DEFINITION. The DuoController commands (43_controller.md): lifecycle, reset, and the extended mode with its coupling to
stereo panning. -/

namespace Sys2Proof.Machine

/-- `BEGIN` (R161): V8 unless Uninitialized; the selector at its default level, the reset line idle, the transport handed
over; then Ready. The mirrors and the ghost file are not touched. -/
def execBegin (s : State) : Result :=
  match s.lifecycle with
  | .ready => .fault .alreadyReady
  | .uninitialized => .next { emitTsetup (emitRst 1 (emitSel 0 s)) with lifecycle := .ready }

/-- One reset pulse, the unit selected first: low for at least `RESET_TICKS` ticks, then high (R162 phase 1, R220). -/
def pulse (unit : BitVec 1) (s : State) : State :=
  emitRst 1 (emitDelay s.cfg.resetTicks (emitRst 0 (emitSel unit s)))

/-- The listed registers written with 0x00, each by the full set of R130 (R162 phase 2). -/
def zeroRegs : List LogicalReg → State → State
  | [], s => s
  | r :: rest, s => zeroRegs rest (writeReg r 0x00 s)

/-- `RESET` (R162): V7; a pulse for each unit, every logical register zeroed through the normal write path, the selector
parked at 0. -/
def execReset (s : State) : Result :=
  whenReady s (.next (emitSel 0 (zeroRegs allRegisters (pulse 1 (pulse 0 s)))))

/-- The register that holds a unit's extended-mode bit (R34 (a)). -/
def enableReg (cfg : Config) (unit : BitVec 1) : Except Fault LogicalReg := locateChip cfg unit cfg.opl3EnReg

/-- Whether a unit's extended-mode bit is set in the mirror (R165), or V9. -/
def unitEnabled (unit : BitVec 1) (s : State) : Except Fault Bool :=
  match enableReg s.cfg unit with
  | .error f => .error f
  | .ok r =>
    match readEntry r s with
    | .error f => .error f
    | .ok v => .ok (fieldSet v s.cfg.opl3EnMask)

/-- `Q3U unit` (R165): V7, V9, then whether the unit's extended-mode bit is set. -/
def execQ3u (unit : BitVec 1) (s : State) : Result :=
  whenReady s
    (match unitEnabled unit s with
    | .error f => .fault f
    | .ok b => .next (respond (boolByte b) s))

/-- `Q3` (R166): V7, V9, then whether the extended-mode bit of both units is set. -/
def execQ3 (s : State) : Result :=
  whenReady s
    (match unitEnabled 0 s, unitEnabled 1 s with
    | .error f, _ => .fault f
    | .ok _, .error f => .fault f
    | .ok a, .ok b => .next (respond (boolByte (a && b)) s))

/-- One read-modify-write of a masked field through the normal get and set (R164: `SetEnableBit`, `SetPan`). -/
def updateField (mask : Byte) (enable : Bool) (r : LogicalReg) (s : State) : Except Fault State :=
  match readEntry r s with
  | .error f => .error f
  | .ok old => .ok (writeReg r (withField old mask enable) s)

/-- The same field of each listed register, in order. -/
def updateFields (mask : Byte) (enable : Bool) : List LogicalReg → State → Except Fault State
  | [], s => .ok s
  | r :: rest, s =>
    match updateField mask enable r s with
    | .error f => .error f
    | .ok t => updateFields mask enable rest t

/-- Whether a logical register's mirror entry has been written. -/
def written (s : State) (r : LogicalReg) : Bool := (mirrorRead r s).isSome

/-- The mode command on the listed units and channels (R164, R167, R168): the V9 check of every entry that will be read
comes before the first effect (R183); then the extended-mode bit of each unit; then the panning bits of each channel. The
coupling stands in this one operation (R169). -/
def setMode (onUnits : List (BitVec 1)) (onChannels : List (Fin 36)) (enable : Bool) (s : State) : Result :=
  match posChip s.cfg s.cfg.opl3EnReg, posChan s.cfg.panBase with
  | none, _ => .fault .unrecognizedChipReg
  | some _, none => .fault .unrecognizedChannelBase
  | some en, some pan =>
    let modeRegs := onUnits.map fun u => LogicalReg.chip u en
    let panRegs := onChannels.map fun c => LogicalReg.chan pan c
    if (modeRegs ++ panRegs).all (written s) then
      match updateFields s.cfg.opl3EnMask enable modeRegs s with
      | .error f => .fault f
      | .ok t =>
        match updateFields s.cfg.panMask enable panRegs t with
        | .error f => .fault f
        | .ok u => .next u
    else .fault .unwrittenMirrorRead

/-- `SET3U unit, enable` (R167): the unit's extended-mode bit, then the panning bits of its 18 channels. -/
def execSet3u (unit : BitVec 1) (enable : Bool) (s : State) : Result :=
  whenReady s (setMode [unit] (channelsOfUnit unit) enable s)

/-- `SET3 enable` (R168): the extended-mode bit of unit 0, then of unit 1, then the panning bits of all 36 channels. -/
def execSet3 (enable : Bool) (s : State) : Result :=
  whenReady s (setMode units allChannels enable s)

end Sys2Proof.Machine
end

