-- ==== Sys2Proof/Machine/ShadowStore.lean ====
section
/-! DEFINITION. The ShadowStore commands (41_shadow_store.md): the gets and sets of the three register classes. -/

namespace Sys2Proof.Machine

/-- `GETCHIP unit, reg` (R131): V7, V1, V9, then the byte of `CHIPM[chipIndex(unit, reg)]`. -/
def execGetchip (unit : BitVec 1) (reg : BitVec 9) (s : State) : Result :=
  whenReady s (getLocated (locateChip s.cfg unit reg) s)

/-- `SETCHIP unit, reg, value` (R132): V7, V1, then mirror and physical register. -/
def execSetchip (unit : BitVec 1) (reg : BitVec 9) (value : Byte) (s : State) : Result :=
  whenReady s (setLocated (locateChip s.cfg unit reg) value s)

/-- `GETCHAN base, channel` (R133): V7, V4, V2, V9, then the byte of `CHANM[channelOffset(base, channel)]`. -/
def execGetchan (base : Byte) (channel : BitVec 6) (s : State) : Result :=
  whenReady s (getLocated (locateChan base channel) s)

/-- `SETCHAN base, channel, value` (R134): V7, V4, V2, then mirror and physical register. -/
def execSetchan (base : Byte) (channel : BitVec 6) (value : Byte) (s : State) : Result :=
  whenReady s (setLocated (locateChan base channel) value s)

/-- `GETOP base, channel, op` (R135): V7, V4, V3, V9, then the byte of `OPM[operatorOffset(base, channel, op)]`. -/
def execGetop (base : Byte) (channel : BitVec 6) (op : BitVec 1) (s : State) : Result :=
  whenReady s (getLocated (locateOp base channel op) s)

/-- `SETOP base, channel, op, value` (R136): V7, V4, V3, then mirror and physical register. -/
def execSetop (base : Byte) (channel : BitVec 6) (op : BitVec 1) (value : Byte) (s : State) : Result :=
  whenReady s (setLocated (locateOp base channel op) value s)

end Sys2Proof.Machine
end

