-- ==== Sys2Proof/Machine/Dispatch.lean ====
section
/-! DEFINITION. One arm per constructor of Instr, each a direct call of its meaning. -/

namespace Sys2Proof.Machine

def exec (i : Instr) (s : State) : Host.Outcome State Fault Refusal :=
  match i with
  | .begin => Sys2Proof.Machine.execBegin s
  | .reset => Sys2Proof.Machine.execReset s
  | .getchip unit reg => Sys2Proof.Machine.execGetchip unit reg s
  | .setchip unit reg value => Sys2Proof.Machine.execSetchip unit reg value s
  | .getchan base channel => Sys2Proof.Machine.execGetchan base channel s
  | .setchan base channel value => Sys2Proof.Machine.execSetchan base channel value s
  | .getop base channel op => Sys2Proof.Machine.execGetop base channel op s
  | .setop base channel op value => Sys2Proof.Machine.execSetop base channel op value s
  | .q3u unit => Sys2Proof.Machine.execQ3u unit s
  | .q3 => Sys2Proof.Machine.execQ3 s
  | .set3u unit enable => Sys2Proof.Machine.execSet3u unit enable s
  | .set3 enable => Sys2Proof.Machine.execSet3 enable s

end Sys2Proof.Machine
end

