-- ==== Sys2Proof/Machine/Step.lean ====
section
/-! DEFINITION. One step: take the oldest issued command, decode it, run it to completion (R60). -/

namespace Sys2Proof.Machine

/-- One step. A reserved encoding is V6 (R87). With no command issued the block does nothing and the state stays as it is
(DEDUCED, log 1): it fetches nothing (R30), nothing is pending (R225), nothing interrupts it (R184). -/
def step (s : State) : Host.Outcome State Fault Refusal :=
  match takeCommand s with
  | none => .next s
  | some (w, t) =>
    match decode w with
    | .command i => exec i t
    | .reservedOpcode => .fault .illegalCommand
    | .mustBeZero => .fault .illegalCommand

/-- The state in which the host has issued, as the next command, the word whose low `nbits` bits are `w` and whose other
bits are zero. Nothing else changes (log 1). -/
def State.withFetchWord (s : State) (nbits w : Nat) : State := issueNext (BitVec.ofNat 32 (w % 2 ^ nbits)) s

end Sys2Proof.Machine
end

