-- ==== Sys2Proof/WellFormed.lean ====
section
/-! DEFINITION. What is checked before anything runs: the configuration (R9, P1 to P6, and RESET_TICKS of R8), and the
caller contract of a command (R218). -/

namespace Sys2Proof

open Sys2Proof.Machine

/-- How many bits of a byte are set. -/
def bitCount (b : Byte) : Nat := (List.range 8).countP fun i => b.getLsbD i

/-- P1 of R9: five pairwise distinct entries, each below 0x200 (the width says so). -/
def Config.chipRegsDistinct (cfg : Config) : Bool := decide cfg.chipRegs.toList.Nodup

/-- P2 of R9: `OPL3_EN_REG` is in `CHIP_REGS`. -/
def Config.enRegKnown (cfg : Config) : Bool := (posChip cfg cfg.opl3EnReg).isSome

/-- P3 of R9: `PAN_BASE` is in `CHAN_BASES`. -/
def Config.panBaseKnown (cfg : Config) : Bool := (posChan cfg.panBase).isSome

/-- P4 of R9: `OPL3_EN_MASK` has exactly one bit set and `PAN_MASK` exactly two. -/
def Config.masksOk (cfg : Config) : Bool := bitCount cfg.opl3EnMask == 1 && bitCount cfg.panMask == 2

/-- P5 of R9: no operator register byte is above 0xFF. -/
def Config.spacingFits (cfg : Config) : Bool :=
  ([0, 1, 2, 3, 4] : List (Fin 5)).all fun p => units.all fun o => (List.range 9).all fun cm =>
    (opBase p).toNat + cm + spacingOf cfg o cm ≤ 0xFF

/-- P6 of R9: the physical map of the 478 logical registers is injective. -/
def Config.physInjective (cfg : Config) : Bool := decide (allRegisters.map (LogicalReg.physKey cfg)).Nodup

/-- R8: `RESET_TICKS` is at least 1. -/
def Config.ticksOk (cfg : Config) : Bool := decide (1 ≤ cfg.resetTicks)

/-- All the checks of a configuration. -/
def Config.wf (cfg : Config) : Bool :=
  cfg.chipRegsDistinct && cfg.enRegKnown && cfg.panBaseKnown && cfg.masksOk && cfg.spacingFits
    && cfg.physInjective && cfg.ticksOk

/-- The host owes valid addresses only (R218): a recognised register or base, a channel below 36. A unit and an operator
index have no other values. Every command has an encoding, whether or not it keeps to this. -/
def Instr.inContract (cfg : Config) : Instr → Bool
  | .begin => true
  | .reset => true
  | .getchip _ reg => (posChip cfg reg).isSome
  | .setchip _ reg _ => (posChip cfg reg).isSome
  | .getchan base channel => decide (channel.toNat < 36) && (posChan base).isSome
  | .setchan base channel _ => decide (channel.toNat < 36) && (posChan base).isSome
  | .getop base channel _ => decide (channel.toNat < 36) && (posOp base).isSome
  | .setop base channel _ _ => decide (channel.toNat < 36) && (posOp base).isSome
  | .q3u _ => true
  | .q3 => true
  | .set3u _ _ => true
  | .set3 _ => true

end Sys2Proof
end

