-- ==== Sys2Proof/Safety.lean ====
section
/-! DEFINITION. What the claims are stated in terms of: the invariants of a state, the events a command emits, the
violation a command meets first, and runs of several commands. No definition here gives an instruction its meaning. -/

namespace Sys2Proof.Machine

/-- The three mirror arrays and the ghost file are in canonical form and inside their sizes (R21, R22, R23, R53). -/
def State.canonical (s : State) : Bool :=
  s.chipm.wf 10 && s.chanm.wf 108 && s.opm.wf 360 && s.phys.wf 1024

/-- Every written mirror entry equals what the physical register of the same logical register was last sent. With
`mirrorComplete` this is the mirror invariant of R33. -/
def State.mirrorAgrees (s : State) : Prop :=
  ∀ r v, mirrorRead r s = some v → physRead r s = some v

/-- Every one of the 478 mirror entries has been written. -/
def State.mirrorComplete (s : State) : Prop := ∀ r, ∃ v, mirrorRead r s = some v

/-- Every transport event of a trace, oldest first, has a selector event immediately before it (R152); `before` says
whether the event just before the list is one. -/
def transportsFollowSelector : Bool → List Event → Bool
  | _, [] => true
  | before, .tw _ _ _ :: rest => before && transportsFollowSelector false rest
  | _, .sel _ :: rest => transportsFollowSelector true rest
  | _, .rst _ :: rest => transportsFollowSelector false rest
  | _, .delay _ :: rest => transportsFollowSelector false rest
  | _, .tsetup :: rest => transportsFollowSelector false rest

/-- The level the selector line was last driven to in a trace, oldest first, starting from a level (R27). -/
def selAfter : BitVec 1 → List Event → BitVec 1
  | level, [] => level
  | _, .sel b :: rest => selAfter b rest
  | level, .tw _ _ _ :: rest => selAfter level rest
  | level, .rst _ :: rest => selAfter level rest
  | level, .delay _ :: rest => selAfter level rest
  | level, .tsetup :: rest => selAfter level rest

/-- The level the reset line was last driven to in a trace, oldest first, starting from a level (R28). -/
def rstAfter : BitVec 1 → List Event → BitVec 1
  | level, [] => level
  | _, .rst b :: rest => rstAfter b rest
  | level, .sel _ :: rest => rstAfter level rest
  | level, .tw _ _ _ :: rest => rstAfter level rest
  | level, .delay _ :: rest => rstAfter level rest
  | level, .tsetup :: rest => rstAfter level rest

/-- The ghost file the events of a trace, oldest first, leave behind, starting from a selector level and a ghost file: the
two ways of R32 in which it changes. -/
def physAfter : BitVec 1 → Memory → List Event → Memory
  | _, phys, [] => phys
  | _, phys, .sel b :: rest => physAfter b phys rest
  | level, phys, .tw a r v :: rest => physAfter level (phys.write (physKey level a r) v) rest
  | level, phys, .rst b :: rest => physAfter level (physAfterRst b phys) rest
  | level, phys, .delay _ :: rest => physAfter level phys rest
  | level, phys, .tsetup :: rest => physAfter level phys rest

/-- The two events of one set (R130, R150): the selector at the register's unit, then the transport write. -/
def setEvents (cfg : Config) (r : LogicalReg) (value : Byte) : List Event :=
  [.sel (physicalUnit (r.bank cfg)), .tw (bankBit (r.bank cfg)) (r.physReg cfg) value]

/-- The four events of one reset pulse (R162 phase 1). -/
def pulseEvents (cfg : Config) (unit : BitVec 1) : List Event :=
  [.sel unit, .rst 0, .delay cfg.resetTicks, .rst 1]

/-- Both pulses, a set of 0x00 for each listed register, the parking of the selector. -/
def zeroingEvents (cfg : Config) (rs : List LogicalReg) : List Event :=
  pulseEvents cfg 0 ++ pulseEvents cfg 1 ++ rs.flatMap (fun r => setEvents cfg r 0x00) ++ [.sel 0]

/-- The events of `RESET` (R162). -/
def resetEvents (cfg : Config) : List Event := zeroingEvents cfg allRegisters

/-- The byte a mode command writes to a register: its mirror byte before the command with the masked field set or cleared
(R164). The command has checked that the entry is written, so the byte for an unwritten one is never used. -/
def modeByte (s : State) (mask : Byte) (enable : Bool) (r : LogicalReg) : Byte :=
  withField ((mirrorRead r s).getD 0) mask enable

/-- The events of a mode command on the given mode and panning registers (R167, R168). -/
def modeEvents (s : State) (enable : Bool) (modeRegs panRegs : List LogicalReg) : List Event :=
  modeRegs.flatMap (fun r => setEvents s.cfg r (modeByte s s.cfg.opl3EnMask enable r))
    ++ panRegs.flatMap (fun r => setEvents s.cfg r (modeByte s s.cfg.panMask enable r))

/-- The register that holds the extended-mode bit of each listed unit, under a configuration that passes P2. -/
def modeRegisters (cfg : Config) (onUnits : List (BitVec 1)) : List LogicalReg :=
  match posChip cfg cfg.opl3EnReg with
  | some en => onUnits.map fun u => .chip u en
  | none => []

/-- The register that holds the panning bits of each listed channel, under a configuration that passes P3. -/
def panRegisters (cfg : Config) (onChannels : List (Fin 36)) : List LogicalReg :=
  match posChan cfg.panBase with
  | some pan => onChannels.map fun c => .chan pan c
  | none => []

/-- The one register an address names, as a list, empty if it names none. -/
def located : Except Fault LogicalReg → List LogicalReg
  | .ok r => [r]
  | .error _ => []

/-- The mirror entries a command will read, of which V9 asks that each be written (R181, R183). -/
def entriesRead (cfg : Config) : Instr → List LogicalReg
  | .begin => []
  | .reset => []
  | .getchip unit reg => located (locateChip cfg unit reg)
  | .setchip _ _ _ => []
  | .getchan base channel => located (locateChan base channel)
  | .setchan _ _ _ => []
  | .getop base channel op => located (locateOp base channel op)
  | .setop _ _ _ _ => []
  | .q3u unit => modeRegisters cfg [unit]
  | .q3 => modeRegisters cfg units
  | .set3u unit _ => modeRegisters cfg [unit] ++ panRegisters cfg (channelsOfUnit unit)
  | .set3 _ => modeRegisters cfg units ++ panRegisters cfg allChannels

/-- V7 and V8: the lifecycle state a command does not run in (R160). -/
def lifecycleViolation (i : Instr) (s : State) : Option Fault :=
  match s.lifecycle with
  | .ready => if i = .begin then some .alreadyReady else none
  | .uninitialized => if i = .begin then none else some .notReady

/-- V4 for a channel field (R181). -/
def rangeViolation (channel : BitVec 6) : Option Fault :=
  if 36 ≤ channel.toNat then some .channelOutOfRange else none

/-- V4: the channel field of a command is 36 or more (R181). -/
def channelViolation : Instr → Option Fault
  | .begin => none
  | .reset => none
  | .getchip _ _ => none
  | .setchip _ _ _ => none
  | .getchan _ channel => rangeViolation channel
  | .setchan _ channel _ => rangeViolation channel
  | .getop _ channel _ => rangeViolation channel
  | .setop _ channel _ _ => rangeViolation channel
  | .q3u _ => none
  | .q3 => none
  | .set3u _ _ => none
  | .set3 _ => none

/-- V1, V2 and V3: the register or base of a command is not recognised (R181). -/
def recognitionViolation (cfg : Config) : Instr → Option Fault
  | .begin => none
  | .reset => none
  | .getchip _ reg => if (posChip cfg reg).isNone then some .unrecognizedChipReg else none
  | .setchip _ reg _ => if (posChip cfg reg).isNone then some .unrecognizedChipReg else none
  | .getchan base _ => if (posChan base).isNone then some .unrecognizedChannelBase else none
  | .setchan base _ _ => if (posChan base).isNone then some .unrecognizedChannelBase else none
  | .getop base _ _ => if (posOp base).isNone then some .unrecognizedOperatorBase else none
  | .setop base _ _ _ => if (posOp base).isNone then some .unrecognizedOperatorBase else none
  | .q3u _ => none
  | .q3 => none
  | .set3u _ _ => none
  | .set3 _ => none

/-- V9: some entry a command will read is unwritten (R181). -/
def unwrittenViolation (i : Instr) (s : State) : Option Fault :=
  if (entriesRead s.cfg i).all (written s) then none else some .unwrittenMirrorRead

/-- The violation R183 has the model report: V7 or V8, then V4, then V1, V2 or V3, then V9. -/
def firstViolation (i : Instr) (s : State) : Option Fault :=
  (((lifecycleViolation i s).or (channelViolation i)).or (recognitionViolation s.cfg i)).or (unwrittenViolation i s)

/-- The violations each command can raise: the "raised by" column of R181. -/
def mayRaise : Instr → List Fault
  | .begin => [.alreadyReady]
  | .reset => [.notReady]
  | .getchip _ _ => [.notReady, .unrecognizedChipReg, .unwrittenMirrorRead]
  | .setchip _ _ _ => [.notReady, .unrecognizedChipReg]
  | .getchan _ _ => [.notReady, .channelOutOfRange, .unrecognizedChannelBase, .unwrittenMirrorRead]
  | .setchan _ _ _ => [.notReady, .channelOutOfRange, .unrecognizedChannelBase]
  | .getop _ _ _ => [.notReady, .channelOutOfRange, .unrecognizedOperatorBase, .unwrittenMirrorRead]
  | .setop _ _ _ _ => [.notReady, .channelOutOfRange, .unrecognizedOperatorBase]
  | .q3u _ => [.notReady, .unwrittenMirrorRead]
  | .q3 => [.notReady, .unwrittenMirrorRead]
  | .set3u _ _ => [.notReady, .unwrittenMirrorRead]
  | .set3 _ => [.notReady, .unwrittenMirrorRead]

/-- How many events a command emits (R57, R130, R161, R162, R167, R168). -/
def eventCount : Instr → Nat
  | .begin => 3
  | .reset => 965
  | .getchip _ _ => 0
  | .setchip _ _ _ => 2
  | .getchan _ _ => 0
  | .setchan _ _ _ => 2
  | .getop _ _ _ => 0
  | .setop _ _ _ _ => 2
  | .q3u _ => 0
  | .q3 => 0
  | .set3u _ _ => 38
  | .set3 _ => 76

/-- Whether an event drives the selector line. -/
def isSelEvent : Event → Bool
  | .sel _ => true
  | .rst _ => false
  | .delay _ => false
  | .tw _ _ _ => false
  | .tsetup => false

/-- Whether an event is a transport write. -/
def isTransportEvent : Event → Bool
  | .sel _ => false
  | .rst _ => false
  | .delay _ => false
  | .tw _ _ _ => true
  | .tsetup => false

/-- How many selector events a command emits that belong to no physical write: `BEGIN` parks the line, `RESET` selects each
unit for its pulse and parks the line (R153, R161, R162). -/
def ownSelEvents : Instr → Nat
  | .begin => 1
  | .reset => 3
  | .getchip _ _ => 0
  | .setchip _ _ _ => 0
  | .getchan _ _ => 0
  | .setchan _ _ _ => 0
  | .getop _ _ _ => 0
  | .setop _ _ _ _ => 0
  | .q3u _ => 0
  | .q3 => 0
  | .set3u _ _ => 0
  | .set3 _ => 0

/-- How many bytes a command puts on the response port (R89). -/
def responseCount : Instr → Nat
  | .begin => 0
  | .reset => 0
  | .getchip _ _ => 1
  | .setchip _ _ _ => 0
  | .getchan _ _ => 1
  | .setchan _ _ _ => 0
  | .getop _ _ _ => 1
  | .setop _ _ _ _ => 0
  | .q3u _ => 1
  | .q3 => 1
  | .set3u _ _ => 0
  | .set3 _ => 0

/-- The command that gets a logical register. -/
def getCommand (cfg : Config) : LogicalReg → Instr
  | .chip unit pos => .getchip unit cfg.chipRegs[pos]
  | .chan pos channel => .getchan (chanBase pos) (BitVec.ofNat 6 channel.val)
  | .op pos channel oper => .getop (opBase pos) (BitVec.ofNat 6 channel.val) oper

/-- The command that sets a logical register. -/
def setCommand (cfg : Config) (value : Byte) : LogicalReg → Instr
  | .chip unit pos => .setchip unit cfg.chipRegs[pos] value
  | .chan pos channel => .setchan (chanBase pos) (BitVec.ofNat 6 channel.val) value
  | .op pos channel oper => .setop (opBase pos) (BitVec.ofNat 6 channel.val) oper value

/-- Several commands one after another, ending at the first violation (R60, R182). -/
def execAll : List Instr → State → Result
  | [], s => .next s
  | i :: rest, s =>
    match exec i s with
    | .next t => execAll rest t
    | .fault f => .fault f
    | .refused r => .refused r

end Sys2Proof.Machine
end

