-- ==== Sys2Proof/Certificates/Slice0/Obligations.lean ====
section
/-! DEFINITION. The statements for the provers: encoding, the address mapper, each command's result and stops, frames, and
the invariants every step keeps. -/

open Sys2Proof Sys2Proof.Machine

/-! Encoding and the step. -/

/-- The decoder gives back every instruction from its word, at every value of every operand. -/
def Obligations.DecodeOfEncodedInstruction : Prop := ∀ i, decode (encode i) = .command i

/-- Each word has at most one meaning: a word that decodes to an instruction is that instruction's word. -/
def Obligations.EncodeOfDecodedWord : Prop := ∀ w i, decode w = .command i → encode i = w

/-- A word decodes to an instruction of a row of R85 exactly when it matches the row, and no word matches two rows. -/
def Obligations.DecodeFollowsOpcodeTable : Prop :=
  ∀ (w : Word) (n : Fin 12),
    ((∃ i, decode w = .command i ∧ i.rowNumber = n) ↔ w &&& opcodeTable[n].mask = opcodeTable[n].pattern) ∧
    ∀ m : Fin 12, w &&& opcodeTable[n].mask = opcodeTable[n].pattern →
      w &&& opcodeTable[m].mask = opcodeTable[m].pattern → m = n

/-- Decoding is total: a word that matches no row is one of the two reserved kinds, and it is a reserved opcode exactly when
bits 31:28 are 0x0, 0xD, 0xE or 0xF. -/
def Obligations.ReservedWordsAreNamed : Prop :=
  ∀ w : Word,
    ((∀ n : Fin 12, w &&& opcodeTable[n].mask ≠ opcodeTable[n].pattern) ↔
      (decode w = .reservedOpcode ∨ decode w = .mustBeZero)) ∧
    (decode w = .reservedOpcode ↔
      (w.toNat / 2 ^ 28 = 0x0 ∨ w.toNat / 2 ^ 28 = 0xD ∨ w.toNat / 2 ^ 28 = 0xE ∨ w.toNat / 2 ^ 28 = 0xF))

/-- Words the spec writes out for its worked examples decode to the commands it gives them. -/
def Obligations.WorkedWordsDecode : Prop :=
  decode 0x10000000 = .command .begin ∧
  decode 0x20000000 = .command .reset ∧
  decode 0x38010500 = .command (.getchip 1 0x105) ∧
  decode 0x48010501 = .command (.setchip 1 0x105 0x01) ∧
  decode 0x5090B000 = .command (.getchan 0xB0 9) ∧
  decode 0x6120B031 = .command (.setchan 0xB0 18 0x31) ∧
  decode 0x76304000 = .command (.getop 0x40 35 1) ∧
  decode 0x8630403F = .command (.setop 0x40 35 1 0x3F) ∧
  decode 0x98000000 = .command (.q3u 1) ∧
  decode 0xA0000000 = .command .q3 ∧
  decode 0xB8000001 = .command (.set3u 1 true) ∧
  decode 0xC0000000 = .command (.set3 false) ∧
  decode 0x6091B031 = .mustBeZero ∧
  decode 0x00000000 = .reservedOpcode

/-- When the oldest issued word decodes to an instruction, a step takes the word and is that instruction's execution. -/
def Obligations.StepRunsDecodedInstruction : Prop :=
  ∀ (s : State) w rest i, s.commands = w :: rest → decode w = .command i →
    step s = exec i { s with commands := rest }

/-- When the oldest issued word is a reserved encoding, a step is V6. -/
def Obligations.StepOnReservedWordIsIllegalCommand : Prop :=
  ∀ (s : State) w rest, s.commands = w :: rest → (∀ i, decode w ≠ .command i) →
    step s = .fault .illegalCommand

/-- With no command issued a step leaves the state as it is (the model's reading, log 1). -/
def Obligations.StepWithNothingIssuedIdles : Prop :=
  ∀ s : State, s.commands = [] → step s = .next s

/-- An instruction whose word the host issues as the next command is the one the next step executes. -/
def Obligations.IssuedWordRunsNext : Prop :=
  ∀ (s : State) (i : Instr), step (s.withFetchWord 32 (encode i).toNat) = exec i s

/-! The address mapper. -/

/-- R119: bit 1 of the bank is the unit, bit 0 the within-chip bank bit. -/
def Obligations.BankSplitsIntoUnitAndBit : Prop :=
  ∀ bank : BitVec 2,
    physicalUnit bank = (if bank = 0 ∨ bank = 1 then 0 else 1) ∧
    bankBit bank = (if bank = 0 ∨ bank = 2 then 0 else 1)

/-- The channels of a unit are `18 * unit` to `18 * unit + 17`, ascending, and the unit of channel c is c / 18. -/
def Obligations.ChannelsOfUnitAscend : Prop :=
  (∀ c : Fin 36, (unitOfChannel c.val).toNat = c.val / 18) ∧
  ∀ u : BitVec 1, (channelsOfUnit u).map Fin.val = List.range' (18 * u.toNat) 18

/-- R121: no two channel registers share a physical location, every index of a mirror array is the entry of exactly one
logical register, and under P6 no two of the 478 logical registers share a physical location. -/
def Obligations.MapperTotalAndInjective : Prop :=
  (∀ (p p' : Fin 3) (c c' : Fin 36), bankOf c.val = bankOf c'.val →
    chanPhysReg (chanBase p) c.val = chanPhysReg (chanBase p') c'.val → p = p' ∧ c = c') ∧
  (∀ r : LogicalReg, r.index < mirrorSize r.cls) ∧
  (∀ cls i, i < mirrorSize cls → ∃! r : LogicalReg, r.cls = cls ∧ r.index = i) ∧
  (∀ cfg : Config, cfg.physInjective = true → ∀ r r' : LogicalReg,
    r.bank cfg = r'.bank cfg → r.physReg cfg = r'.physReg cfg → r = r')

/-- The byte additions of R117 and R118 never carry: for channel registers always, for operator registers under P5. -/
def Obligations.RegisterBytesNeverCarry : Prop :=
  (∀ (p : Fin 3) (c : Fin 36), (chanPhysReg (chanBase p) c.val).toNat = (chanBase p).toNat + c.val % 9 ∧
    (chanPhysReg (chanBase p) c.val).toNat ≤ 0xC8) ∧
  ∀ cfg : Config, cfg.spacingFits = true → ∀ (p : Fin 5) (c : Fin 36) (o : BitVec 1),
    (opPhysReg cfg (opBase p) c.val o).toNat = (opBase p).toNat + c.val % 9 + spacingOf cfg o c.val

/-- R150: the selector is driven to bit 1 of the bank, then the transport called with bit 0, the register byte and the value;
the chip the selector points at takes the write. -/
def Obligations.PhysWriteDrivesSelectorThenTransport : Prop :=
  ∀ (bank : BitVec 2) (reg value : Byte) (s : State),
    physWrite bank reg value s =
      { s with
        sel := BitVec.ofNat 1 (bank.toNat / 2)
        phys := s.phys.write (bank.toNat * 256 + reg.toNat) value
        traceRev := .tw (BitVec.ofNat 1 bank.toNat) reg value :: .sel (BitVec.ofNat 1 (bank.toNat / 2)) :: s.traceRev }

/-! Lifecycle and reset. -/

/-- Power-on: Uninitialized, no mirror entry written, no chip register known, nothing issued, emitted or answered. -/
def Obligations.PowerOnState : Prop :=
  State.reset.lifecycle = .uninitialized ∧
  (∀ cls i, readPort cls i State.reset = none) ∧
  (∀ k, State.reset.phys.read k = none) ∧
  State.reset.commands = [] ∧ State.reset.trace = [] ∧ State.reset.responses = []

/-- `BEGIN` while Uninitialized parks the selector at 0 and the reset line at 1, hands the transport over and makes the block
Ready; mirrors and ghost file stay. While Ready it is V8. -/
def Obligations.BeginMakesReady : Prop :=
  ∀ s : State,
    (s.lifecycle = .uninitialized →
      exec .begin s = .next { s with
        lifecycle := .ready
        sel := 0
        rstN := 1
        traceRev := .tsetup :: .rst 1 :: .sel 0 :: s.traceRev }) ∧
    (s.lifecycle = .ready → exec .begin s = .fault .alreadyReady)

/-- While Uninitialized every command but `BEGIN` is V7, and every command that completes leaves the block Ready. -/
def Obligations.OnlyBeginRunsBeforeReady : Prop :=
  ∀ (i : Instr) (s : State),
    (s.lifecycle = .uninitialized → i ≠ .begin → exec i s = .fault .notReady) ∧
    ∀ t, exec i s = .next t → t.lifecycle = .ready ∧ (s.lifecycle = .uninitialized ↔ i = .begin)

/-- R163: after `RESET` the block is Ready, the selector is 0, the reset line 1, every mirror entry is written with 0x00, and
the ghost file is 0x00 at the physical locations of the 478 logical registers and unknown elsewhere. Nothing else changes. -/
def Obligations.ResetZeroesEveryRegister : Prop :=
  ∀ s : State, s.lifecycle = .ready →
    ∃ t, exec .reset s = .next t ∧
      t.lifecycle = .ready ∧ t.sel = 0 ∧ t.rstN = 1 ∧
      (∀ cls i, i < mirrorSize cls → readPort cls i t = some 0x00) ∧
      (∀ r : LogicalReg, mirrorRead r t = some 0x00 ∧ physRead r t = some 0x00) ∧
      (∀ k, (∀ r : LogicalReg, r.physKey s.cfg ≠ k) → t.phys.read k = none) ∧
      (∀ cls i, mirrorSize cls ≤ i → readPort cls i t = readPort cls i s) ∧
      t.cfg = s.cfg ∧ t.commands = s.commands ∧ t.responses = s.responses

/-- The events of `RESET`: 965, a pulse for unit 0, a pulse for unit 1, a set of 0x00 for each register, the selector parked
at 0. The order is the spec's decision D19 (log 10). -/
def Obligations.ResetEmitsPulsesThenSets : Prop :=
  ∀ s t : State, exec .reset s = .next t →
    t.trace = s.trace ++ resetEvents s.cfg ∧ (resetEvents s.cfg).length = 965 ∧
    (resetEvents s.cfg).take 8 =
      [.sel 0, .rst 0, .delay s.cfg.resetTicks, .rst 1, .sel 1, .rst 0, .delay s.cfg.resetTicks, .rst 1] ∧
    (resetEvents s.cfg).getLast? = some (.sel 0)

/-! Gets. -/

/-- R131: a Ready `GETCHIP` of a recognised register answers the byte of `CHIPM[unit * 5 + posChip(reg)]` and changes nothing
else; otherwise V7, V1 or V9. -/
def Obligations.GetchipAnswersMirrorByte : Prop :=
  ∀ (unit : BitVec 1) (reg : BitVec 9) (s : State),
    (s.lifecycle = .uninitialized → exec (.getchip unit reg) s = .fault .notReady) ∧
    (s.lifecycle = .ready → posChip s.cfg reg = none → exec (.getchip unit reg) s = .fault .unrecognizedChipReg) ∧
    ∀ pos, s.lifecycle = .ready → posChip s.cfg reg = some pos →
      (s.chipm.read (unit.toNat * 5 + pos.val) = none →
        exec (.getchip unit reg) s = .fault .unwrittenMirrorRead) ∧
      ∀ v, s.chipm.read (unit.toNat * 5 + pos.val) = some v →
        exec (.getchip unit reg) s = .next { s with responses := s.responses ++ [v] }

/-- A Ready `GETCHAN` of a channel below 36 and a channel base answers the byte of `CHANM[channel * 3 + posChan(base)]`;
otherwise V7, V4, V2 or V9, in that order (R133, decision D14). -/
def Obligations.GetchanAnswersMirrorByte : Prop :=
  ∀ (base : Byte) (channel : BitVec 6) (s : State),
    (s.lifecycle = .uninitialized → exec (.getchan base channel) s = .fault .notReady) ∧
    (s.lifecycle = .ready → 36 ≤ channel.toNat → exec (.getchan base channel) s = .fault .channelOutOfRange) ∧
    (s.lifecycle = .ready → channel.toNat < 36 → posChan base = none →
      exec (.getchan base channel) s = .fault .unrecognizedChannelBase) ∧
    ∀ pos, s.lifecycle = .ready → channel.toNat < 36 → posChan base = some pos →
      (s.chanm.read (channel.toNat * 3 + pos.val) = none →
        exec (.getchan base channel) s = .fault .unwrittenMirrorRead) ∧
      ∀ v, s.chanm.read (channel.toNat * 3 + pos.val) = some v →
        exec (.getchan base channel) s = .next { s with responses := s.responses ++ [v] }

/-- A Ready `GETOP` of a channel below 36 and an operator base answers the byte of
`OPM[channel * 10 + op * 5 + posOp(base)]`; otherwise V7, V4, V3 or V9, in that order (R135, decision D14). -/
def Obligations.GetopAnswersMirrorByte : Prop :=
  ∀ (base : Byte) (channel : BitVec 6) (op : BitVec 1) (s : State),
    (s.lifecycle = .uninitialized → exec (.getop base channel op) s = .fault .notReady) ∧
    (s.lifecycle = .ready → 36 ≤ channel.toNat → exec (.getop base channel op) s = .fault .channelOutOfRange) ∧
    (s.lifecycle = .ready → channel.toNat < 36 → posOp base = none →
      exec (.getop base channel op) s = .fault .unrecognizedOperatorBase) ∧
    ∀ pos, s.lifecycle = .ready → channel.toNat < 36 → posOp base = some pos →
      (s.opm.read (channel.toNat * 10 + op.toNat * 5 + pos.val) = none →
        exec (.getop base channel op) s = .fault .unwrittenMirrorRead) ∧
      ∀ v, s.opm.read (channel.toNat * 10 + op.toNat * 5 + pos.val) = some v →
        exec (.getop base channel op) s = .next { s with responses := s.responses ++ [v] }

/-! Sets. -/

/-- R132: a Ready `SETCHIP` of a recognised register writes `CHIPM[unit * 5 + posChip(reg)]` and emits `SEL(unit)`, then
`TW(reg[8], reg[7:0], value)`; otherwise V7 or V1. Nothing else changes. -/
def Obligations.SetchipWritesMirrorAndChip : Prop :=
  ∀ (unit : BitVec 1) (reg : BitVec 9) (value : Byte) (s : State),
    (s.lifecycle = .uninitialized → exec (.setchip unit reg value) s = .fault .notReady) ∧
    (s.lifecycle = .ready → posChip s.cfg reg = none →
      exec (.setchip unit reg value) s = .fault .unrecognizedChipReg) ∧
    ∀ pos, s.lifecycle = .ready → posChip s.cfg reg = some pos →
      exec (.setchip unit reg value) s = .next { s with
        chipm := s.chipm.write (unit.toNat * 5 + pos.val) value
        sel := unit
        phys := s.phys.write (unit.toNat * 512 + reg.toNat) value
        traceRev := .tw (BitVec.ofNat 1 (reg.toNat / 256)) (BitVec.ofNat 8 reg.toNat) value :: .sel unit :: s.traceRev }

/-- R134: a Ready `SETCHAN` of a channel below 36 and a channel base writes `CHANM[channel * 3 + posChan(base)]` and emits
`SEL(channel / 18)`, then `TW(channel / 9 mod 2, base + channel mod 9, value)`; otherwise V7, V4 or V2. Nothing else
changes. -/
def Obligations.SetchanWritesMirrorAndChip : Prop :=
  ∀ (base : Byte) (channel : BitVec 6) (value : Byte) (s : State),
    (s.lifecycle = .uninitialized → exec (.setchan base channel value) s = .fault .notReady) ∧
    (s.lifecycle = .ready → 36 ≤ channel.toNat →
      exec (.setchan base channel value) s = .fault .channelOutOfRange) ∧
    (s.lifecycle = .ready → channel.toNat < 36 → posChan base = none →
      exec (.setchan base channel value) s = .fault .unrecognizedChannelBase) ∧
    ∀ pos, s.lifecycle = .ready → channel.toNat < 36 → posChan base = some pos →
      exec (.setchan base channel value) s = .next { s with
        chanm := s.chanm.write (channel.toNat * 3 + pos.val) value
        sel := BitVec.ofNat 1 (channel.toNat / 18)
        phys := s.phys.write (channel.toNat / 9 * 256 + base.toNat + channel.toNat % 9) value
        traceRev := .tw (BitVec.ofNat 1 (channel.toNat / 9 % 2)) (BitVec.ofNat 8 (base.toNat + channel.toNat % 9)) value
          :: .sel (BitVec.ofNat 1 (channel.toNat / 18)) :: s.traceRev }

/-- A Ready `SETOP` of a channel below 36 and an operator base writes `OPM[channel * 10 + op * 5 + posOp(base)]` and emits
`SEL(channel / 18)`, then `TW(channel / 9 mod 2, base + cm + OP_SPACING(op, cm), value)`; otherwise V7, V4 or V3. Nothing
else changes. For parameters that pass P5 this is R136; for parameters that fail P5 the register byte is that sum modulo
256, which the spec does not say: the model's choice (DESIGN CHOICE, log 18). -/
def Obligations.SetopWritesMirrorAndChip : Prop :=
  ∀ (base : Byte) (channel : BitVec 6) (op : BitVec 1) (value : Byte) (s : State),
    (s.lifecycle = .uninitialized → exec (.setop base channel op value) s = .fault .notReady) ∧
    (s.lifecycle = .ready → 36 ≤ channel.toNat →
      exec (.setop base channel op value) s = .fault .channelOutOfRange) ∧
    (s.lifecycle = .ready → channel.toNat < 36 → posOp base = none →
      exec (.setop base channel op value) s = .fault .unrecognizedOperatorBase) ∧
    ∀ pos, s.lifecycle = .ready → channel.toNat < 36 → posOp base = some pos →
      exec (.setop base channel op value) s = .next { s with
        opm := s.opm.write (channel.toNat * 10 + op.toNat * 5 + pos.val) value
        sel := BitVec.ofNat 1 (channel.toNat / 18)
        phys := s.phys.write
          (channel.toNat / 9 * 256 + (base.toNat + channel.toNat % 9 + spacingOf s.cfg op channel.toNat) % 256) value
        traceRev := .tw (BitVec.ofNat 1 (channel.toNat / 9 % 2))
            (BitVec.ofNat 8 (base.toNat + channel.toNat % 9 + spacingOf s.cfg op channel.toNat)) value
          :: .sel (BitVec.ofNat 1 (channel.toNat / 18)) :: s.traceRev }

/-! Queries. -/

/-- A Ready `Q3U` answers 0x01 if the extended-mode bit of the unit's mirror byte is set, else 0x00, and changes nothing
else; V7 while Uninitialized, V9 if the entry is unwritten. For parameters that pass P2. -/
def Obligations.Q3uAnswersEnableBit : Prop :=
  ∀ (unit : BitVec 1) (pos : Fin 5) (s : State), posChip s.cfg s.cfg.opl3EnReg = some pos →
    (s.lifecycle = .uninitialized → exec (.q3u unit) s = .fault .notReady) ∧
    (s.lifecycle = .ready → s.chipm.read (unit.toNat * 5 + pos.val) = none →
      exec (.q3u unit) s = .fault .unwrittenMirrorRead) ∧
    ∀ v, s.lifecycle = .ready → s.chipm.read (unit.toNat * 5 + pos.val) = some v →
      exec (.q3u unit) s = .next { s with
        responses := s.responses ++ [if v &&& s.cfg.opl3EnMask = 0 then 0x00 else 0x01] }

/-- A Ready `Q3` answers 0x01 if the extended-mode bits of both units' mirror bytes are set, else 0x00 (the spec's decision
D21), and changes nothing else; V7 while Uninitialized, V9 if either entry is unwritten. For parameters that pass P2. -/
def Obligations.Q3AnswersBothEnableBits : Prop :=
  ∀ (pos : Fin 5) (s : State), posChip s.cfg s.cfg.opl3EnReg = some pos →
    (s.lifecycle = .uninitialized → exec .q3 s = .fault .notReady) ∧
    (s.lifecycle = .ready → (s.chipm.read pos.val = none ∨ s.chipm.read (5 + pos.val) = none) →
      exec .q3 s = .fault .unwrittenMirrorRead) ∧
    ∀ v w, s.lifecycle = .ready → s.chipm.read pos.val = some v → s.chipm.read (5 + pos.val) = some w →
      exec .q3 s = .next { s with
        responses := s.responses ++
          [if v &&& s.cfg.opl3EnMask = 0 ∨ w &&& s.cfg.opl3EnMask = 0 then 0x00 else 0x01] }

/-! Mode commands. -/

/-- `SET3U`, for parameters that pass P2 and P3: with the unit's mode entry and its 18 panning entries written, it completes;
each of the 19 keeps its other bits and takes `enable` in its field, in the mirror and on the chip's side of the trace; no
other entry changes, nothing of the other unit changes, the selector is left at the unit; 38 events, the mode write first,
then ascending channels (order and read-modify-write are the spec's decisions D20, D22, D23; log 10, 11, 12). Otherwise
V7 or V9. -/
def Obligations.Set3uSetsModeAndPanning : Prop :=
  ∀ (unit : BitVec 1) (enable : Bool) (en : Fin 5) (pan : Fin 3) (s : State),
    posChip s.cfg s.cfg.opl3EnReg = some en → posChan s.cfg.panBase = some pan →
    (s.lifecycle = .uninitialized → exec (.set3u unit enable) s = .fault .notReady) ∧
    (s.lifecycle = .ready →
      (mirrorRead (.chip unit en) s = none ∨
        ∃ c : Fin 36, c.val / 18 = unit.toNat ∧ mirrorRead (.chan pan c) s = none) →
      exec (.set3u unit enable) s = .fault .unwrittenMirrorRead) ∧
    (s.lifecycle = .ready → (∃ v, mirrorRead (.chip unit en) s = some v) →
      (∀ c : Fin 36, c.val / 18 = unit.toNat → ∃ v, mirrorRead (.chan pan c) s = some v) →
      ∃ t, exec (.set3u unit enable) s = .next t ∧
        (∀ v, mirrorRead (.chip unit en) s = some v →
          mirrorRead (.chip unit en) t =
            some ((v &&& ~~~s.cfg.opl3EnMask) ||| (if enable then s.cfg.opl3EnMask else 0))) ∧
        (∀ (c : Fin 36) v, c.val / 18 = unit.toNat → mirrorRead (.chan pan c) s = some v →
          mirrorRead (.chan pan c) t = some ((v &&& ~~~s.cfg.panMask) ||| (if enable then s.cfg.panMask else 0))) ∧
        (∀ cls i, (∀ r ∈ entriesRead s.cfg (.set3u unit enable), ¬(cls = r.cls ∧ i = r.index)) →
          readPort cls i t = readPort cls i s) ∧
        (∀ k, (∀ r ∈ entriesRead s.cfg (.set3u unit enable), r.physKey s.cfg ≠ k) →
          t.phys.read k = s.phys.read k) ∧
        (∀ k, k / 512 ≠ unit.toNat → t.phys.read k = s.phys.read k) ∧
        t.trace = s.trace ++ modeEvents s enable [.chip unit en] ((channelsOfUnit unit).map (.chan pan)) ∧
        t.trace.length = s.trace.length + 38 ∧
        t.sel = unit ∧ t.rstN = s.rstN ∧ t.lifecycle = s.lifecycle ∧ t.cfg = s.cfg ∧ t.commands = s.commands ∧
        t.responses = s.responses)

/-- `SET3`, for parameters that pass P2 and P3: the same on both units, the two mode writes first; 76 events; the selector is
left at 1 (order and read-modify-write are the spec's decisions D20, D22, D23; log 10, 11, 12). Otherwise V7 or V9. -/
def Obligations.Set3SetsModeAndPanningOfBothUnits : Prop :=
  ∀ (enable : Bool) (en : Fin 5) (pan : Fin 3) (s : State),
    posChip s.cfg s.cfg.opl3EnReg = some en → posChan s.cfg.panBase = some pan →
    (s.lifecycle = .uninitialized → exec (.set3 enable) s = .fault .notReady) ∧
    (s.lifecycle = .ready →
      ((∃ u, mirrorRead (.chip u en) s = none) ∨ ∃ c, mirrorRead (.chan pan c) s = none) →
      exec (.set3 enable) s = .fault .unwrittenMirrorRead) ∧
    (s.lifecycle = .ready → (∀ u, ∃ v, mirrorRead (.chip u en) s = some v) →
      (∀ c, ∃ v, mirrorRead (.chan pan c) s = some v) →
      ∃ t, exec (.set3 enable) s = .next t ∧
        (∀ u v, mirrorRead (.chip u en) s = some v →
          mirrorRead (.chip u en) t =
            some ((v &&& ~~~s.cfg.opl3EnMask) ||| (if enable then s.cfg.opl3EnMask else 0))) ∧
        (∀ c v, mirrorRead (.chan pan c) s = some v →
          mirrorRead (.chan pan c) t = some ((v &&& ~~~s.cfg.panMask) ||| (if enable then s.cfg.panMask else 0))) ∧
        (∀ cls i, (∀ r ∈ entriesRead s.cfg (.set3 enable), ¬(cls = r.cls ∧ i = r.index)) →
          readPort cls i t = readPort cls i s) ∧
        (∀ k, (∀ r ∈ entriesRead s.cfg (.set3 enable), r.physKey s.cfg ≠ k) → t.phys.read k = s.phys.read k) ∧
        t.trace = s.trace ++ modeEvents s enable [.chip 0 en, .chip 1 en] (allChannels.map (.chan pan)) ∧
        t.trace.length = s.trace.length + 76 ∧
        t.sel = 1 ∧ t.rstN = s.rstN ∧ t.lifecycle = s.lifecycle ∧ t.cfg = s.cfg ∧ t.commands = s.commands ∧
        t.responses = s.responses)

/-- The end state of `SET3 enable` is that of `SET3U 0, enable` followed by `SET3U 1, enable`; only the trace differs, and
that only in order: the two runs emit equally many events. -/
def Obligations.Set3EqualsSet3uOnEachUnit : Prop :=
  ∀ (enable : Bool) (s : State), s.cfg.wf = true → s.canonical = true → s.lifecycle = .ready → s.mirrorComplete →
    ∃ t u, exec (.set3 enable) s = .next t ∧
      execAll [.set3u 0 enable, .set3u 1 enable] s = .next u ∧
      { t with traceRev := u.traceRev } = u ∧ t.trace.length = u.trace.length

/-- Mode and panning move together: after `SET3U unit, enable` the query of the unit answers `enable`, and both panning bits
of every channel of the unit equal it (R169). -/
def Obligations.ModeAndPanningMoveTogether : Prop :=
  ∀ (unit : BitVec 1) (enable : Bool) (s t : State), s.cfg.wf = true → exec (.set3u unit enable) s = .next t →
    exec (.q3u unit) t = .next { t with responses := t.responses ++ [if enable then 0x01 else 0x00] } ∧
    ∀ (pan : Fin 3) (c : Fin 36), posChan s.cfg.panBase = some pan → c.val / 18 = unit.toNat →
      ∃ v, mirrorRead (.chan pan c) t = some v ∧ v &&& s.cfg.panMask = (if enable then s.cfg.panMask else 0)

/-! Stops. -/

/-- For parameters that pass their checks, a command stops exactly with the first violation in the order V7 or V8, V4, V1 V2
or V3, V9, and completes exactly when there is none (R183). -/
def Obligations.FirstViolationDecides : Prop :=
  ∀ (i : Instr) (s : State), s.cfg.wf = true →
    (∀ f, exec i s = .fault f ↔ firstViolation i s = some f) ∧
    ((∃ t, exec i s = .next t) ↔ firstViolation i s = none)

/-- For parameters that pass their checks, a command raises only the violations the table of R181 lists for it. -/
def Obligations.OnlyListedViolations : Prop :=
  ∀ (i : Instr) (s : State) (f : Fault), s.cfg.wf = true → exec i s = .fault f → f ∈ mayRaise i

/-- A host that has issued `BEGIN` and `RESET` (Ready, every mirror entry written) and keeps to valid addresses meets no
violation, and the mirror stays written (R216, R218). -/
def Obligations.ContractSuffices : Prop :=
  ∀ (i : Instr) (s : State), s.cfg.wf = true → s.lifecycle = .ready → s.mirrorComplete → i ≠ .begin →
    i.inContract s.cfg = true → ∃ t, exec i s = .next t ∧ t.mirrorComplete

/-- No instruction of the table is without a meaning, in any state. -/
def Obligations.NothingIsRefused : Prop :=
  ∀ (i : Instr) (s : State) (r : Refusal), exec i s ≠ .refused r ∧ step s ≠ .refused r

/-! Frames. -/

/-- R57: the gets and queries change nothing but the response list, which gains one byte, and the same command issued again,
with only gets and queries between, answers the same byte. A set issued again leaves every mirror entry as it is and emits
its two events again. -/
def Obligations.ReadsHaveNoSideEffect : Prop :=
  (∀ (i : Instr) (js : List Instr) (s t u : State), responseCount i = 1 → (∀ j ∈ js, responseCount j = 1) →
    exec i s = .next t → execAll js t = .next u →
    ∃ v, t = { s with responses := s.responses ++ [v] } ∧
      exec i u = .next { u with responses := u.responses ++ [v] }) ∧
  ∀ (i : Instr) (s t : State), eventCount i = 2 → exec i s = .next t →
    ∃ u es, exec i t = .next u ∧ u.chipm = t.chipm ∧ u.chanm = t.chanm ∧ u.opm = t.opm ∧ u.responses = t.responses ∧
      es.length = 2 ∧ t.trace = s.trace ++ es ∧ u.trace = t.trace ++ es

/-- No command reads the pin latches, the chips or the trace: from two states that differ only in these, a command stops with
the same violation, or completes with the same mirrors, lifecycle and responses. So the two pin levels this model names at
power-on (log 5, log 6) reach no answer. -/
def Obligations.PinsChipsAndTraceAreNeverRead : Prop :=
  ∀ (i : Instr) (s : State) (a b : BitVec 1) (p : Memory) (es : List Event),
    (∀ f, exec i s = .fault f → exec i { s with sel := a, rstN := b, phys := p, traceRev := es } = .fault f) ∧
    ∀ t, exec i s = .next t →
      ∃ u, exec i { s with sel := a, rstN := b, phys := p, traceRev := es } = .next u ∧
        u.chipm = t.chipm ∧ u.chanm = t.chanm ∧ u.opm = t.opm ∧ u.lifecycle = t.lifecycle ∧
        u.responses = t.responses

/-- The three sets leave every mirror entry but the addressed one, and every physical register but the addressed one, as they
were, and change neither the lifecycle, the reset line, the responses, the parameters nor the issued commands. -/
def Obligations.SetFrame : Prop :=
  (∀ (unit : BitVec 1) (reg : BitVec 9) (value : Byte) (s t : State), exec (.setchip unit reg value) s = .next t →
    (∀ cls i, (∀ pos, posChip s.cfg reg = some pos → ¬(cls = .chipm ∧ i = chipIndex unit pos)) →
      readPort cls i t = readPort cls i s) ∧
    (∀ k, k ≠ physKey unit (bankBit (chipBank unit reg)) (chipPhysReg reg) → t.phys.read k = s.phys.read k) ∧
    t.lifecycle = s.lifecycle ∧ t.rstN = s.rstN ∧ t.responses = s.responses ∧ t.cfg = s.cfg ∧
    t.commands = s.commands) ∧
  (∀ (base : Byte) (channel : BitVec 6) (value : Byte) (s t : State), exec (.setchan base channel value) s = .next t →
    (∀ cls i, (∀ pos, posChan base = some pos → ¬(cls = .chanm ∧ i = channelOffset pos channel.toNat)) →
      readPort cls i t = readPort cls i s) ∧
    (∀ k, k ≠ physKey (unitOfChannel channel.toNat) (bankBit (bankOf channel.toNat)) (chanPhysReg base channel.toNat) →
      t.phys.read k = s.phys.read k) ∧
    t.lifecycle = s.lifecycle ∧ t.rstN = s.rstN ∧ t.responses = s.responses ∧ t.cfg = s.cfg ∧
    t.commands = s.commands) ∧
  (∀ (base : Byte) (channel : BitVec 6) (op : BitVec 1) (value : Byte) (s t : State),
    exec (.setop base channel op value) s = .next t →
    (∀ cls i, (∀ pos, posOp base = some pos → ¬(cls = .opm ∧ i = operatorOffset pos channel.toNat op)) →
      readPort cls i t = readPort cls i s) ∧
    (∀ k, k ≠ physKey (unitOfChannel channel.toNat) (bankBit (bankOf channel.toNat))
        (opPhysReg s.cfg base channel.toNat op) → t.phys.read k = s.phys.read k) ∧
    t.lifecycle = s.lifecycle ∧ t.rstN = s.rstN ∧ t.responses = s.responses ∧ t.cfg = s.cfg ∧
    t.commands = s.commands)

/-- Every command that completes appends exactly its number of events to the trace and exactly its number of bytes to the
responses, and changes neither the parameters nor the issued commands. The three events of `BEGIN` are the spec's decision
D17 (R161, log 13); the one parking event of the 965 of `RESET` is its decision D19 (R162, log 10). -/
def Obligations.EveryCommandAppendsItsCounts : Prop :=
  ∀ (i : Instr) (s t : State), exec i s = .next t →
    (∃ es, t.trace = s.trace ++ es ∧ es.length = eventCount i) ∧
    (∃ vs, t.responses = s.responses ++ vs ∧ vs.length = responseCount i) ∧
    t.cfg = s.cfg ∧ t.commands = s.commands

/-- The events of a completed command have a selector event immediately before each transport event (R152), whatever level
the line already has, and one selector event for each transport event (R153) beside those `BEGIN` and `RESET` emit on their
own: one of `BEGIN` (R161, the spec's decision D17, log 13), three of `RESET`, the last of them always emitted (R162, the
spec's decision D19, log 10). -/
def Obligations.SelectorDrivenOnEveryWrite : Prop :=
  ∀ (i : Instr) (s t : State), exec i s = .next t →
    ∃ es, t.trace = s.trace ++ es ∧ transportsFollowSelector false es = true ∧
      es.countP isSelEvent = es.countP isTransportEvent + ownSelEvents i

/-- Only `BEGIN` and `RESET` drive the reset line (R28), and both leave it high: `RESET` because its pulse ends deasserted
(R162), `BEGIN` by the spec's decision D17 (R161, R211, log 13). -/
def Obligations.OnlyBeginAndResetDriveResetLine : Prop :=
  ∀ (i : Instr) (s t : State), exec i s = .next t →
    (i = .begin ∨ i = .reset → t.rstN = 1) ∧
    (i ≠ .begin → i ≠ .reset → t.rstN = s.rstN ∧ ∀ b, t.trace.count (.rst b) = s.trace.count (.rst b))

/-! Reads after writes. -/

/-- R137: after `RESET` and any sets, with repeats or without, in any order, any gets in any order answer, for each register,
the last value set, or 0x00 if it was never set. For parameters that pass P1. -/
def Obligations.RoundTripInAnyOrder : Prop :=
  ∀ (s : State) (sets : List (LogicalReg × Byte)) (gets : List LogicalReg),
    s.cfg.chipRegsDistinct = true → s.lifecycle = .ready →
    ∃ t, execAll (.reset :: (sets.map fun w => setCommand s.cfg w.2 w.1) ++ gets.map (getCommand s.cfg)) s = .next t ∧
      t.responses = s.responses ++ gets.map fun r =>
        match sets.reverse.find? (fun w => w.1 = r) with
        | some w => w.2
        | none => 0x00

/-! Invariants. -/

/-- Power-on meets the invariants below, but for the completeness of the mirror that only `RESET` establishes, and its
parameters pass their checks. That `State.reset` carries the defaults of R8 is the model's choice (PRESUMED, log 4); that
these pass is R9's "The defaults of rule R8 pass P1 to P6". -/
def Obligations.PowerOnMeetsInvariants : Prop :=
  State.reset.canonical = true ∧ State.reset.cfg.wf = true ∧ State.reset.mirrorAgrees ∧
  selAfter State.reset.sel State.reset.trace = State.reset.sel ∧
  rstAfter State.reset.rstN State.reset.trace = State.reset.rstN ∧
  transportsFollowSelector false State.reset.trace = true ∧
  physAfter State.reset.sel [] State.reset.trace = State.reset.phys

/-- Every step keeps the canonical form of the mirrors and the ghost file, and their sizes. -/
def Obligations.StepKeepsCanonicalForm : Prop :=
  ∀ s t : State, s.canonical = true → step s = .next t → t.canonical = true

/-- Every step keeps the agreement of every written mirror entry with the chip's register, for parameters that pass P6, and
leaves the parameters alone (R33). -/
def Obligations.StepKeepsMirrorAgreement : Prop :=
  ∀ s t : State, s.cfg.physInjective = true → s.mirrorAgrees → step s = .next t →
    t.mirrorAgrees ∧ t.cfg = s.cfg

/-- `RESET` establishes the mirror invariant over all 478 registers and every later step keeps it, for parameters that pass
P6 (R33). -/
def Obligations.MirrorInvariantFromResetOn : Prop :=
  (∀ s t : State, exec .reset s = .next t → t.mirrorComplete ∧ t.mirrorAgrees) ∧
  ∀ s t : State, s.cfg.physInjective = true → s.mirrorComplete → s.mirrorAgrees → step s = .next t →
    t.mirrorComplete ∧ t.mirrorAgrees

/-- `SEL` and `RST_N` are at every point between commands the levels their lines were last driven to in the trace, whatever
their levels at power-on (R27, R28). -/
def Obligations.StepKeepsLatchesOnTrace : Prop :=
  ∀ (s t : State) (a b : BitVec 1), selAfter a s.trace = s.sel → rstAfter b s.trace = s.rstN → step s = .next t →
    selAfter a t.trace = t.sel ∧ rstAfter b t.trace = t.rstN

/-- In the trace every transport event has a selector event immediately before it, and every step keeps it so (R152, R153). -/
def Obligations.StepKeepsTransportAfterSelector : Prop :=
  ∀ s t : State, transportsFollowSelector false s.trace = true → step s = .next t →
    transportsFollowSelector false t.trace = true

/-- The ghost file is at every point between commands what the trace's transport writes and reset pulses leave behind,
whatever the selector's level at power-on (R32). -/
def Obligations.StepKeepsGhostFileOnTrace : Prop :=
  ∀ (s t : State) (a : BitVec 1), selAfter a s.trace = s.sel → physAfter a [] s.trace = s.phys → step s = .next t →
    selAfter a t.trace = t.sel ∧ physAfter a [] t.trace = t.phys
end

