-- ==== Sys2Proof/Laws/Decode.lean ====
section
/-! SUPPORT. Splitting a word into its fields and joining them again, and masks field by field. -/

namespace Sys2Proof

/-- The fields of a joined word are the fields it was joined from. -/
@[simp] theorem splitWord_joinWord (f : Fields) : splitWord (joinWord f) = f := by
  obtain ⟨opc, unit, oper, chan, mbz, reg, val⟩ := f
  simp only [splitWord, joinWord, Fields.mk.injEq]
  refine ⟨?_, ?_, ?_, ?_, ?_, ?_, ?_⟩ <;>
    · apply BitVec.eq_of_getElem_eq
      intro i hi
      interval_cases i <;> simp

/-- Words with one field in common have its bits in common. -/
theorem bit_of_extract_eq {w v : Word} {start len i : Nat} (h : w.extractLsb' start len = v.extractLsb' start len)
    (h1 : start ≤ i) (h2 : i < start + len) : w.getLsbD i = v.getLsbD i := by
  have hb := congrArg (fun x => x.getLsbD (i - start)) h
  simpa [BitVec.getLsbD_extractLsb', show i - start < len by omega, show start + (i - start) = i by omega] using hb

/-- A word is determined by its fields. -/
theorem splitWord_inj {w v : Word} (h : splitWord w = splitWord v) : w = v := by
  simp only [splitWord, Fields.mk.injEq] at h
  obtain ⟨h1, h2, h3, h4, h5, h6, h7⟩ := h
  apply BitVec.eq_of_getLsbD_eq
  intro i hi
  by_cases c1 : i < 8
  · exact bit_of_extract_eq h7 (by omega) (by omega)
  by_cases c2 : i < 17
  · exact bit_of_extract_eq h6 (by omega) (by omega)
  by_cases c3 : i < 20
  · exact bit_of_extract_eq h5 (by omega) (by omega)
  by_cases c4 : i < 26
  · exact bit_of_extract_eq h4 (by omega) (by omega)
  by_cases c5 : i < 27
  · exact bit_of_extract_eq h3 (by omega) (by omega)
  by_cases c6 : i < 28
  · exact bit_of_extract_eq h2 (by omega) (by omega)
  · exact bit_of_extract_eq h1 (by omega) (by omega)

/-- Joining the fields of a word gives the word back. -/
@[simp] theorem joinWord_splitWord (w : Word) : joinWord (splitWord w) = w :=
  splitWord_inj (splitWord_joinWord _)

theorem joinWord_inj {f g : Fields} : joinWord f = joinWord g ↔ f = g :=
  ⟨fun h => by rw [← splitWord_joinWord f, h, splitWord_joinWord], fun h => by rw [h]⟩

/-- The fields of a masked word are the masked fields. -/
theorem splitWord_and (w v : Word) :
    splitWord (w &&& v) =
      ⟨(splitWord w).opc &&& (splitWord v).opc, (splitWord w).unit &&& (splitWord v).unit,
        (splitWord w).oper &&& (splitWord v).oper, (splitWord w).chan &&& (splitWord v).chan,
        (splitWord w).mbz &&& (splitWord v).mbz, (splitWord w).reg &&& (splitWord v).reg,
        (splitWord w).val &&& (splitWord v).val⟩ := by
  simp only [splitWord, Fields.mk.injEq]
  refine ⟨?_, ?_, ?_, ?_, ?_, ?_, ?_⟩ <;>
    · apply BitVec.eq_of_getLsbD_eq
      intro i hi
      simp only [BitVec.getLsbD_extractLsb', BitVec.getLsbD_and]
      cases decide (i < _) <;> simp

/-- A word matches a mask and a pattern when its fields do. -/
theorem masked_iff (w mask pattern : Word) :
    w &&& mask = pattern ↔ splitWord (w &&& mask) = splitWord pattern :=
  ⟨fun h => by rw [h], splitWord_inj⟩

/-- The two parts of the nine-bit field of a base byte. -/
@[simp] theorem baseField_low (b : Byte) : (baseField b).extractLsb' 0 8 = b := by
  apply BitVec.eq_of_getElem_eq
  intro i hi
  interval_cases i <;> simp [baseField]

@[simp] theorem baseField_top (b : Byte) : (baseField b).extractLsb' 8 1 = 0 := by
  apply BitVec.eq_of_getElem_eq
  intro i hi
  interval_cases i
  simp [baseField]

/-- The two parts of the value field of an enable flag. -/
@[simp] theorem enableField_low (e : Bool) : (enableField e)[0] = e := by cases e <;> decide

@[simp] theorem enableField_top (e : Bool) : (enableField e).extractLsb' 1 7 = 0 := by cases e <;> decide

end Sys2Proof
end

