-- ==== Sys2Proof/Laws/Mapper.lean ====
section
/-! SUPPORT. Laws of the address mapper: positions and registers, the ranges of offsets and physical locations, which
registers and channels the controller's lists hold, and that the default configuration passes its checks. -/

namespace Sys2Proof.Machine

/-! Positions. -/

@[simp] theorem posChan_chanBase (p : Fin 3) : posChan (chanBase p) = some p := by fin_cases p <;> rfl

@[simp] theorem posOp_opBase (p : Fin 5) : posOp (opBase p) = some p := by fin_cases p <;> rfl

/-- A base that has a position is the base at that position. -/
theorem chanBase_of_posChan {b : Byte} {p : Fin 3} (h : posChan b = some p) : chanBase p = b := by
  unfold posChan at h
  repeat' split at h
  all_goals first | (cases h; subst b; rfl) | cases h

/-- A base that has a position is the base at that position. -/
theorem opBase_of_posOp {b : Byte} {p : Fin 5} (h : posOp b = some p) : opBase p = b := by
  unfold posOp at h
  repeat' split at h
  all_goals first | (cases h; subst b; rfl) | cases h

/-- A register number that has a position is the register number at that position. -/
theorem chipRegs_of_posChip {cfg : Config} {r : BitVec 9} {p : Fin 5} (h : posChip cfg r = some p) :
    cfg.chipRegs[p] = r := by
  unfold posChip at h
  repeat' split at h
  all_goals first | (cases h; subst r; rfl) | cases h

/-- The entries of `CHIP_REGS` at different positions differ (P1). -/
theorem chipRegs_inj {cfg : Config} (h : cfg.chipRegsDistinct = true) {p q : Fin 5}
    (e : cfg.chipRegs[p] = cfg.chipRegs[q]) : p = q := by
  have hn : cfg.chipRegs.toList.Nodup := of_decide_eq_true h
  apply Fin.ext
  have hl : cfg.chipRegs.toList.length = 5 := by simp
  refine (List.Nodup.getElem_inj_iff hn (hi := by omega) (hj := by omega)).mp ?_
  simpa [Vector.getElem_toList] using e

/-- With distinct registers (P1) the position of an entry is its position. -/
theorem posChip_chipRegs {cfg : Config} (h : cfg.chipRegsDistinct = true) (p : Fin 5) :
    posChip cfg cfg.chipRegs[p] = some p := by
  cases hq : posChip cfg cfg.chipRegs[p] with
  | some q => rw [chipRegs_inj h (chipRegs_of_posChip hq)]
  | none =>
    exfalso
    unfold posChip at hq
    fin_cases p <;> simp at hq
    all_goals repeat' split at hq
    all_goals cases hq

/-! Offsets and physical locations. -/

theorem bit_le_one (b : BitVec 1) : b.toNat ≤ 1 := by have := b.isLt; omega

/-- Every logical register's entry is inside its array. -/
theorem index_lt (r : LogicalReg) : r.index < mirrorSize r.cls := by
  cases r with
  | chip u p => have := bit_le_one u; simp only [LogicalReg.index, chipIndex, mirrorSize, LogicalReg.cls]; omega
  | chan p c => simp only [LogicalReg.index, channelOffset, mirrorSize, LogicalReg.cls]; omega
  | op p c o =>
    have := bit_le_one o; simp only [LogicalReg.index, operatorOffset, mirrorSize, LogicalReg.cls]; omega

/-- Two logical registers with the same entry are the same register. -/
theorem reg_of_entry {r r' : LogicalReg} (hc : r.cls = r'.cls) (hi : r.index = r'.index) : r = r' := by
  cases r <;> cases r' <;> simp only [LogicalReg.cls, reduceCtorEq] at hc
  · next u p u' p' =>
    have := bit_le_one u; have := bit_le_one u'
    simp only [LogicalReg.index, chipIndex] at hi
    have hu : u = u' := BitVec.eq_of_toNat_eq (by omega)
    have hp : p = p' := Fin.ext (by omega)
    rw [hu, hp]
  · next p c p' c' =>
    simp only [LogicalReg.index, channelOffset] at hi
    have hc : c = c' := Fin.ext (by omega)
    have hp : p = p' := Fin.ext (by omega)
    rw [hc, hp]
  · next p c o p' c' o' =>
    have := bit_le_one o; have := bit_le_one o'
    simp only [LogicalReg.index, operatorOffset] at hi
    have hc : c = c' := Fin.ext (by omega)
    have ho : o = o' := BitVec.eq_of_toNat_eq (by omega)
    have hp : p = p' := Fin.ext (by omega)
    rw [hc, ho, hp]

/-- A flattened physical location is below 1024. -/
theorem physKey_lt (u b : BitVec 1) (reg : Byte) : physKey u b reg < 1024 := by
  have := bit_le_one u; have := bit_le_one b; have := reg.isLt
  unfold physKey; omega

/-- Different physical locations have different places in the flattened ghost file. -/
theorem physKey_inj {u u' b b' : BitVec 1} {reg reg' : Byte} (h : physKey u b reg = physKey u' b' reg') :
    u = u' ∧ b = b' ∧ reg = reg' := by
  have := bit_le_one u; have := bit_le_one b; have := reg.isLt
  have := bit_le_one u'; have := bit_le_one b'; have := reg'.isLt
  unfold physKey at h
  exact ⟨BitVec.eq_of_toNat_eq (by omega), BitVec.eq_of_toNat_eq (by omega), BitVec.eq_of_toNat_eq (by omega)⟩

theorem regPhysKey_lt (cfg : Config) (r : LogicalReg) : r.physKey cfg < 1024 := physKey_lt _ _ _

/-- The unit of a chip-wide register's bank is the unit it was addressed with. -/
@[simp] theorem physicalUnit_chipBank (u : BitVec 1) (reg : BitVec 9) : physicalUnit (chipBank u reg) = u := by
  apply BitVec.eq_of_getElem_eq
  intro i hi
  interval_cases i
  simp [physicalUnit, chipBank]

/-- The within-chip bank bit of a chip-wide register is bit 8 of its number. -/
@[simp] theorem bankBit_chipBank (u : BitVec 1) (reg : BitVec 9) :
    bankBit (chipBank u reg) = reg.extractLsb' 8 1 := by
  apply BitVec.eq_of_getElem_eq
  intro i hi
  interval_cases i
  simp [bankBit, chipBank]

/-! The controller's lists. -/

theorem mem_units (u : BitVec 1) : u ∈ units := by
  revert u; decide

theorem mem_allChannels (c : Fin 36) : c ∈ allChannels := List.mem_finRange c

/-- `RESET` writes every logical register. -/
theorem mem_allRegisters (r : LogicalReg) : r ∈ allRegisters := by
  have five : ∀ p : Fin 5, p ∈ ([0, 1, 2, 3, 4] : List (Fin 5)) := by decide
  have three : ∀ p : Fin 3, p ∈ ([0, 1, 2] : List (Fin 3)) := by decide
  unfold allRegisters
  cases r with
  | chip u p =>
    refine List.mem_append_left _ (List.mem_flatMap.mpr ⟨u, mem_units u, List.mem_map.mpr ⟨p, five p, rfl⟩⟩)
  | chan p c =>
    refine List.mem_append_right _ (List.mem_flatMap.mpr ⟨c, mem_allChannels c, List.mem_append_left _ ?_⟩)
    exact List.mem_map.mpr ⟨p, three p, rfl⟩
  | op p c o =>
    refine List.mem_append_right _ (List.mem_flatMap.mpr ⟨c, mem_allChannels c, List.mem_append_right _ ?_⟩)
    exact List.mem_flatMap.mpr ⟨o, mem_units o, List.mem_map.mpr ⟨p, five p, rfl⟩⟩

/-- The physical map is injective under P6. -/
theorem reg_of_physKey {cfg : Config} (h : cfg.physInjective = true) {r r' : LogicalReg}
    (e : r.physKey cfg = r'.physKey cfg) : r = r' := by
  have hn : (allRegisters.map (LogicalReg.physKey cfg)).Nodup := of_decide_eq_true h
  exact List.inj_on_of_nodup_map hn (mem_allRegisters r) (mem_allRegisters r') e

/-- A list of numbers is free of repeats if each is new to a bit set of the ones before it: a check the kernel evaluates
fast. -/
def distinctFrom : Nat → List Nat → Bool
  | _, [] => true
  | seen, k :: ks => !seen.testBit k && distinctFrom (seen ||| 1 <<< k) ks

theorem nodup_of_distinctFrom {seen : Nat} {ks : List Nat} (h : distinctFrom seen ks = true) :
    ks.Nodup ∧ ∀ k ∈ ks, seen.testBit k = false := by
  induction ks generalizing seen with
  | nil => simp
  | cons k ks ih =>
    simp only [distinctFrom, Bool.and_eq_true, Bool.not_eq_true'] at h
    obtain ⟨hn, hs⟩ := ih h.2
    refine ⟨List.nodup_cons.mpr ⟨fun hk => ?_, hn⟩, fun j hj => ?_⟩
    · have := hs k hk
      simp [Nat.testBit_or, Nat.testBit_shiftLeft] at this
    · rcases List.mem_cons.mp hj with e | hj
      · rw [e]; exact h.1
      · have := hs j hj
        simp only [Nat.testBit_or, Bool.or_eq_false_iff] at this
        exact this.1

/-- P6 holds of the default configuration (R9). -/
theorem default_physInjective : Config.default.physInjective = true := by
  have h : distinctFrom 0 (allRegisters.map (LogicalReg.physKey Config.default)) = true := by decide +kernel
  exact decide_eq_true (nodup_of_distinctFrom h).1

/-- `RESET` writes no register twice. -/
theorem allRegisters_nodup : allRegisters.Nodup := by
  have h : (allRegisters.map (LogicalReg.physKey Config.default)).Nodup := of_decide_eq_true default_physInjective
  exact h.of_map _

/-- `RESET` writes 478 registers. -/
theorem allRegisters_length : allRegisters.length = 478 := by decide +kernel

theorem units_nodup : units.Nodup := by decide

theorem allChannels_nodup : allChannels.Nodup := List.nodup_finRange 36

theorem channelsOfUnit_nodup (u : BitVec 1) : (channelsOfUnit u).Nodup := allChannels_nodup.filter _

theorem mem_channelsOfUnit {u : BitVec 1} {c : Fin 36} : c ∈ channelsOfUnit u ↔ unitOfChannel c.val = u := by
  simp [channelsOfUnit, mem_allChannels]

/-- The default configuration passes every check (R9). -/
theorem default_wf : Config.default.wf = true := by
  have h : (Config.default.chipRegsDistinct && Config.default.enRegKnown && Config.default.panBaseKnown
    && Config.default.masksOk && Config.default.spacingFits) = true := by decide +kernel
  unfold Config.wf
  rw [h, default_physInjective]
  rfl

end Sys2Proof.Machine
end

