-- ==== Sys2Proof/Laws/Memory.lean ====
section
/-! SUPPORT. The laws of a byte array: read after write, the canonical form kept by every operation, and equality of
canonical arrays from equality of their entries. -/

namespace Sys2Proof.Machine

@[simp] theorem Memory.read_nil (a : Nat) : Memory.read [] a = none := rfl

theorem Memory.read_cons (k : Nat) (v : Byte) (m : Memory) (a : Nat) :
    Memory.read ((k, v) :: m) a = if a = k then some v else Memory.read m a := rfl

@[simp] theorem Memory.write_nil (a : Nat) (b : Byte) : Memory.write [] a b = [(a, b)] := rfl

/-- `Memory.write` in the usual order relations. -/
theorem Memory.write_cons (k : Nat) (v : Byte) (m : Memory) (a : Nat) (b : Byte) :
    Memory.write ((k, v) :: m) a b =
      if k < a then (k, v) :: Memory.write m a b else if a = k then (a, b) :: m else (a, b) :: (k, v) :: m := by
  have e1 : Nat.blt k a = decide (k < a) := by rw [Bool.eq_iff_iff, Nat.blt_eq]; simp
  have e2 : Nat.beq a k = decide (a = k) := by rw [Bool.eq_iff_iff, Nat.beq_eq]; simp
  rw [Memory.write, e1, e2, Bool.cond_decide, Bool.cond_decide]

/-- Reading back what was written. -/
@[simp] theorem Memory.read_write_same (m : Memory) (a : Nat) (b : Byte) : (m.write a b).read a = some b := by
  induction m with
  | nil => simp [Memory.read_cons]
  | cons c m ih =>
    obtain ⟨k, v⟩ := c
    rw [Memory.write_cons]
    split
    · next h => rw [Memory.read_cons, if_neg (by omega), ih]
    · split <;> simp [Memory.read_cons]

/-- A write leaves every other index alone. -/
theorem Memory.read_write_other (m : Memory) (a : Nat) (b : Byte) (i : Nat) (h : i ≠ a) :
    (m.write a b).read i = m.read i := by
  induction m with
  | nil => simp [Memory.read_cons, h]
  | cons c m ih =>
    obtain ⟨k, v⟩ := c
    rw [Memory.write_cons]
    split
    · rw [Memory.read_cons, Memory.read_cons, ih]
    · split
      · next h1 h2 => subst h2; simp [Memory.read_cons, h]
      · simp [Memory.read_cons, h]

/-- Every read after a write. -/
theorem Memory.read_write (m : Memory) (a : Nat) (b : Byte) (i : Nat) :
    (m.write a b).read i = if i = a then some b else m.read i := by
  split
  · next h => rw [h, Memory.read_write_same]
  · next h => exact Memory.read_write_other m a b i h

@[simp] theorem Memory.risesFrom_nil (size lo : Nat) : Memory.risesFrom size lo [] = true := rfl

theorem Memory.risesFrom_cons (size lo k : Nat) (v : Byte) (m : Memory) :
    Memory.risesFrom size lo ((k, v) :: m) = true ↔ lo ≤ k ∧ k < size ∧ Memory.risesFrom size (k + 1) m = true := by
  simp [Memory.risesFrom, and_assoc]

theorem Memory.risesFrom_write {size lo : Nat} {m : Memory} {a : Nat} (b : Byte) (h : Memory.risesFrom size lo m = true)
    (hlo : lo ≤ a) (ha : a < size) : Memory.risesFrom size lo (m.write a b) = true := by
  induction m generalizing lo with
  | nil => simp [Memory.risesFrom, hlo, ha]
  | cons c m ih =>
    obtain ⟨k, v⟩ := c
    rw [Memory.risesFrom_cons] at h
    rw [Memory.write_cons]
    split
    · next hk => rw [Memory.risesFrom_cons]; exact ⟨h.1, h.2.1, ih h.2.2 hk⟩
    · next hk =>
      split
      · next he => subst he; rw [Memory.risesFrom_cons]; exact h
      · next he => rw [Memory.risesFrom_cons, Memory.risesFrom_cons]; exact ⟨hlo, ha, by omega, h.2.1, h.2.2⟩

/-- Writing inside the array keeps the canonical form. -/
theorem Memory.wf_write {size : Nat} {m : Memory} {a : Nat} (b : Byte) (h : m.wf size = true) (ha : a < size) :
    (m.write a b).wf size = true := Memory.risesFrom_write b h (Nat.zero_le _) ha

@[simp] theorem Memory.wf_nil (size : Nat) : Memory.wf size [] = true := rfl

theorem Memory.read_below {size lo : Nat} {m : Memory} (h : Memory.risesFrom size lo m = true) {i : Nat} (hi : i < lo) :
    m.read i = none := by
  induction m generalizing lo with
  | nil => rfl
  | cons c m ih =>
    obtain ⟨k, v⟩ := c
    rw [Memory.risesFrom_cons] at h
    rw [Memory.read_cons, if_neg (by omega)]
    exact ih h.2.2 (by omega)

/-- A canonical array holds nothing outside its size. -/
theorem Memory.read_outside {size lo : Nat} {m : Memory} (h : Memory.risesFrom size lo m = true) {i : Nat}
    (hi : size ≤ i) : m.read i = none := by
  induction m generalizing lo with
  | nil => rfl
  | cons c m ih =>
    obtain ⟨k, v⟩ := c
    rw [Memory.risesFrom_cons] at h
    rw [Memory.read_cons, if_neg (by omega)]
    exact ih h.2.2

theorem Memory.ext_from {size lo : Nat} {m n : Memory} (hm : Memory.risesFrom size lo m = true)
    (hn : Memory.risesFrom size lo n = true) (h : ∀ i, m.read i = n.read i) : m = n := by
  induction m generalizing lo n with
  | nil =>
    cases n with
    | nil => rfl
    | cons d n => have := h d.1; simp [Memory.read] at this
  | cons c m ih =>
    obtain ⟨k, v⟩ := c
    rw [Memory.risesFrom_cons] at hm
    cases n with
    | nil => have := h k; simp [Memory.read] at this
    | cons d n =>
      obtain ⟨k', v'⟩ := d
      rw [Memory.risesFrom_cons] at hn
      have hk : k = k' := by
        rcases Nat.lt_trichotomy k k' with hlt | heq | hgt
        · have h1 := h k
          rw [Memory.read_cons, if_pos rfl, Memory.read_cons, if_neg (by omega),
            Memory.read_below hn.2.2 (by omega)] at h1
          simp at h1
        · exact heq
        · have h1 := h k'
          rw [Memory.read_cons, if_neg (by omega), Memory.read_cons, if_pos rfl,
            Memory.read_below hm.2.2 (by omega)] at h1
          simp at h1
      subst hk
      have hv : v = v' := by simpa [Memory.read_cons] using h k
      subst hv
      rw [ih hm.2.2 hn.2.2]
      intro i
      by_cases hi : i = k
      · rw [hi, Memory.read_below hm.2.2 (by omega), Memory.read_below hn.2.2 (by omega)]
      · simpa [Memory.read_cons, hi] using h i

/-- Canonical arrays with equal entries are equal data. -/
theorem Memory.ext_read {size : Nat} {m n : Memory} (hm : m.wf size = true) (hn : n.wf size = true)
    (h : ∀ i, m.read i = n.read i) : m = n := Memory.ext_from hm hn h

end Sys2Proof.Machine
end

