-- ==== Sys2Proof/Laws/State.lean ====
section
/-! SUPPORT. What each shared operation does to each field of State, so that no proof unfolds a record update. -/

namespace Sys2Proof.Machine

@[simp] theorem record_cfg (e : Event) (s : State) : (record e s).cfg = s.cfg := rfl
@[simp] theorem record_lifecycle (e : Event) (s : State) : (record e s).lifecycle = s.lifecycle := rfl
@[simp] theorem record_sel (e : Event) (s : State) : (record e s).sel = s.sel := rfl
@[simp] theorem record_rstN (e : Event) (s : State) : (record e s).rstN = s.rstN := rfl
@[simp] theorem record_chipm (e : Event) (s : State) : (record e s).chipm = s.chipm := rfl
@[simp] theorem record_chanm (e : Event) (s : State) : (record e s).chanm = s.chanm := rfl
@[simp] theorem record_opm (e : Event) (s : State) : (record e s).opm = s.opm := rfl
@[simp] theorem record_phys (e : Event) (s : State) : (record e s).phys = s.phys := rfl
@[simp] theorem record_commands (e : Event) (s : State) : (record e s).commands = s.commands := rfl
@[simp] theorem record_traceRev (e : Event) (s : State) : (record e s).traceRev = e :: s.traceRev := rfl
@[simp] theorem record_responses (e : Event) (s : State) : (record e s).responses = s.responses := rfl

@[simp] theorem emitSel_cfg (b : BitVec 1) (s : State) : (emitSel b s).cfg = s.cfg := rfl
@[simp] theorem emitSel_lifecycle (b : BitVec 1) (s : State) : (emitSel b s).lifecycle = s.lifecycle := rfl
@[simp] theorem emitSel_sel (b : BitVec 1) (s : State) : (emitSel b s).sel = b := rfl
@[simp] theorem emitSel_rstN (b : BitVec 1) (s : State) : (emitSel b s).rstN = s.rstN := rfl
@[simp] theorem emitSel_chipm (b : BitVec 1) (s : State) : (emitSel b s).chipm = s.chipm := rfl
@[simp] theorem emitSel_chanm (b : BitVec 1) (s : State) : (emitSel b s).chanm = s.chanm := rfl
@[simp] theorem emitSel_opm (b : BitVec 1) (s : State) : (emitSel b s).opm = s.opm := rfl
@[simp] theorem emitSel_phys (b : BitVec 1) (s : State) : (emitSel b s).phys = s.phys := rfl
@[simp] theorem emitSel_commands (b : BitVec 1) (s : State) : (emitSel b s).commands = s.commands := rfl
@[simp] theorem emitSel_traceRev (b : BitVec 1) (s : State) : (emitSel b s).traceRev = .sel b :: s.traceRev := rfl
@[simp] theorem emitSel_responses (b : BitVec 1) (s : State) : (emitSel b s).responses = s.responses := rfl

@[simp] theorem emitRst_cfg (b : BitVec 1) (s : State) : (emitRst b s).cfg = s.cfg := rfl
@[simp] theorem emitRst_lifecycle (b : BitVec 1) (s : State) : (emitRst b s).lifecycle = s.lifecycle := rfl
@[simp] theorem emitRst_sel (b : BitVec 1) (s : State) : (emitRst b s).sel = s.sel := rfl
@[simp] theorem emitRst_rstN (b : BitVec 1) (s : State) : (emitRst b s).rstN = b := rfl
@[simp] theorem emitRst_chipm (b : BitVec 1) (s : State) : (emitRst b s).chipm = s.chipm := rfl
@[simp] theorem emitRst_chanm (b : BitVec 1) (s : State) : (emitRst b s).chanm = s.chanm := rfl
@[simp] theorem emitRst_opm (b : BitVec 1) (s : State) : (emitRst b s).opm = s.opm := rfl
@[simp] theorem emitRst_phys (b : BitVec 1) (s : State) : (emitRst b s).phys = physAfterRst b s.phys := rfl
@[simp] theorem emitRst_commands (b : BitVec 1) (s : State) : (emitRst b s).commands = s.commands := rfl
@[simp] theorem emitRst_traceRev (b : BitVec 1) (s : State) : (emitRst b s).traceRev = .rst b :: s.traceRev := rfl
@[simp] theorem emitRst_responses (b : BitVec 1) (s : State) : (emitRst b s).responses = s.responses := rfl

@[simp] theorem emitDelay_cfg (n : Nat) (s : State) : (emitDelay n s).cfg = s.cfg := rfl
@[simp] theorem emitDelay_lifecycle (n : Nat) (s : State) : (emitDelay n s).lifecycle = s.lifecycle := rfl
@[simp] theorem emitDelay_sel (n : Nat) (s : State) : (emitDelay n s).sel = s.sel := rfl
@[simp] theorem emitDelay_rstN (n : Nat) (s : State) : (emitDelay n s).rstN = s.rstN := rfl
@[simp] theorem emitDelay_chipm (n : Nat) (s : State) : (emitDelay n s).chipm = s.chipm := rfl
@[simp] theorem emitDelay_chanm (n : Nat) (s : State) : (emitDelay n s).chanm = s.chanm := rfl
@[simp] theorem emitDelay_opm (n : Nat) (s : State) : (emitDelay n s).opm = s.opm := rfl
@[simp] theorem emitDelay_phys (n : Nat) (s : State) : (emitDelay n s).phys = s.phys := rfl
@[simp] theorem emitDelay_commands (n : Nat) (s : State) : (emitDelay n s).commands = s.commands := rfl
@[simp] theorem emitDelay_traceRev (n : Nat) (s : State) : (emitDelay n s).traceRev = .delay n :: s.traceRev := rfl
@[simp] theorem emitDelay_responses (n : Nat) (s : State) : (emitDelay n s).responses = s.responses := rfl

@[simp] theorem emitTw_cfg (a : BitVec 1) (r v : Byte) (s : State) : (emitTw a r v s).cfg = s.cfg := rfl
@[simp] theorem emitTw_lifecycle (a : BitVec 1) (r v : Byte) (s : State) : (emitTw a r v s).lifecycle = s.lifecycle := rfl
@[simp] theorem emitTw_sel (a : BitVec 1) (r v : Byte) (s : State) : (emitTw a r v s).sel = s.sel := rfl
@[simp] theorem emitTw_rstN (a : BitVec 1) (r v : Byte) (s : State) : (emitTw a r v s).rstN = s.rstN := rfl
@[simp] theorem emitTw_chipm (a : BitVec 1) (r v : Byte) (s : State) : (emitTw a r v s).chipm = s.chipm := rfl
@[simp] theorem emitTw_chanm (a : BitVec 1) (r v : Byte) (s : State) : (emitTw a r v s).chanm = s.chanm := rfl
@[simp] theorem emitTw_opm (a : BitVec 1) (r v : Byte) (s : State) : (emitTw a r v s).opm = s.opm := rfl
@[simp] theorem emitTw_phys (a : BitVec 1) (r v : Byte) (s : State) : (emitTw a r v s).phys = s.phys.write (physKey s.sel a r) v := rfl
@[simp] theorem emitTw_commands (a : BitVec 1) (r v : Byte) (s : State) : (emitTw a r v s).commands = s.commands := rfl
@[simp] theorem emitTw_traceRev (a : BitVec 1) (r v : Byte) (s : State) : (emitTw a r v s).traceRev = .tw a r v :: s.traceRev := rfl
@[simp] theorem emitTw_responses (a : BitVec 1) (r v : Byte) (s : State) : (emitTw a r v s).responses = s.responses := rfl

@[simp] theorem emitTsetup_cfg (s : State) : (emitTsetup s).cfg = s.cfg := rfl
@[simp] theorem emitTsetup_lifecycle (s : State) : (emitTsetup s).lifecycle = s.lifecycle := rfl
@[simp] theorem emitTsetup_sel (s : State) : (emitTsetup s).sel = s.sel := rfl
@[simp] theorem emitTsetup_rstN (s : State) : (emitTsetup s).rstN = s.rstN := rfl
@[simp] theorem emitTsetup_chipm (s : State) : (emitTsetup s).chipm = s.chipm := rfl
@[simp] theorem emitTsetup_chanm (s : State) : (emitTsetup s).chanm = s.chanm := rfl
@[simp] theorem emitTsetup_opm (s : State) : (emitTsetup s).opm = s.opm := rfl
@[simp] theorem emitTsetup_phys (s : State) : (emitTsetup s).phys = s.phys := rfl
@[simp] theorem emitTsetup_commands (s : State) : (emitTsetup s).commands = s.commands := rfl
@[simp] theorem emitTsetup_traceRev (s : State) : (emitTsetup s).traceRev = .tsetup :: s.traceRev := rfl
@[simp] theorem emitTsetup_responses (s : State) : (emitTsetup s).responses = s.responses := rfl

@[simp] theorem respond_cfg (v : Byte) (s : State) : (respond v s).cfg = s.cfg := rfl
@[simp] theorem respond_lifecycle (v : Byte) (s : State) : (respond v s).lifecycle = s.lifecycle := rfl
@[simp] theorem respond_sel (v : Byte) (s : State) : (respond v s).sel = s.sel := rfl
@[simp] theorem respond_rstN (v : Byte) (s : State) : (respond v s).rstN = s.rstN := rfl
@[simp] theorem respond_chipm (v : Byte) (s : State) : (respond v s).chipm = s.chipm := rfl
@[simp] theorem respond_chanm (v : Byte) (s : State) : (respond v s).chanm = s.chanm := rfl
@[simp] theorem respond_opm (v : Byte) (s : State) : (respond v s).opm = s.opm := rfl
@[simp] theorem respond_phys (v : Byte) (s : State) : (respond v s).phys = s.phys := rfl
@[simp] theorem respond_commands (v : Byte) (s : State) : (respond v s).commands = s.commands := rfl
@[simp] theorem respond_traceRev (v : Byte) (s : State) : (respond v s).traceRev = s.traceRev := rfl
@[simp] theorem respond_responses (v : Byte) (s : State) : (respond v s).responses = s.responses ++ [v] := rfl

@[simp] theorem physWrite_cfg (b : BitVec 2) (r v : Byte) (s : State) : (physWrite b r v s).cfg = s.cfg := rfl
@[simp] theorem physWrite_lifecycle (b : BitVec 2) (r v : Byte) (s : State) : (physWrite b r v s).lifecycle = s.lifecycle := rfl
@[simp] theorem physWrite_sel (b : BitVec 2) (r v : Byte) (s : State) : (physWrite b r v s).sel = physicalUnit b := rfl
@[simp] theorem physWrite_rstN (b : BitVec 2) (r v : Byte) (s : State) : (physWrite b r v s).rstN = s.rstN := rfl
@[simp] theorem physWrite_chipm (b : BitVec 2) (r v : Byte) (s : State) : (physWrite b r v s).chipm = s.chipm := rfl
@[simp] theorem physWrite_chanm (b : BitVec 2) (r v : Byte) (s : State) : (physWrite b r v s).chanm = s.chanm := rfl
@[simp] theorem physWrite_opm (b : BitVec 2) (r v : Byte) (s : State) : (physWrite b r v s).opm = s.opm := rfl
@[simp] theorem physWrite_phys (b : BitVec 2) (r v : Byte) (s : State) : (physWrite b r v s).phys = s.phys.write (physKey (physicalUnit b) (bankBit b) r) v := rfl
@[simp] theorem physWrite_commands (b : BitVec 2) (r v : Byte) (s : State) : (physWrite b r v s).commands = s.commands := rfl
@[simp] theorem physWrite_traceRev (b : BitVec 2) (r v : Byte) (s : State) : (physWrite b r v s).traceRev = .tw (bankBit b) r v :: .sel (physicalUnit b) :: s.traceRev := rfl
@[simp] theorem physWrite_responses (b : BitVec 2) (r v : Byte) (s : State) : (physWrite b r v s).responses = s.responses := rfl

@[simp] theorem pulse_cfg (u : BitVec 1) (s : State) : (pulse u s).cfg = s.cfg := rfl
@[simp] theorem pulse_lifecycle (u : BitVec 1) (s : State) : (pulse u s).lifecycle = s.lifecycle := rfl
@[simp] theorem pulse_sel (u : BitVec 1) (s : State) : (pulse u s).sel = u := rfl
@[simp] theorem pulse_rstN (u : BitVec 1) (s : State) : (pulse u s).rstN = 1 := rfl
@[simp] theorem pulse_chipm (u : BitVec 1) (s : State) : (pulse u s).chipm = s.chipm := rfl
@[simp] theorem pulse_chanm (u : BitVec 1) (s : State) : (pulse u s).chanm = s.chanm := rfl
@[simp] theorem pulse_opm (u : BitVec 1) (s : State) : (pulse u s).opm = s.opm := rfl
@[simp] theorem pulse_phys (u : BitVec 1) (s : State) : (pulse u s).phys = [] := rfl
@[simp] theorem pulse_commands (u : BitVec 1) (s : State) : (pulse u s).commands = s.commands := rfl
@[simp] theorem pulse_traceRev (u : BitVec 1) (s : State) : (pulse u s).traceRev = .rst 1 :: .delay s.cfg.resetTicks :: .rst 0 :: .sel u :: s.traceRev := rfl
@[simp] theorem pulse_responses (u : BitVec 1) (s : State) : (pulse u s).responses = s.responses := rfl

@[simp] theorem writePort_cfg (c : MirrorClass) (i : Nat) (v : Byte) (s : State) :
    (writePort c i v s).cfg = s.cfg := by cases c <;> rfl
@[simp] theorem writePort_lifecycle (c : MirrorClass) (i : Nat) (v : Byte) (s : State) :
    (writePort c i v s).lifecycle = s.lifecycle := by cases c <;> rfl
@[simp] theorem writePort_sel (c : MirrorClass) (i : Nat) (v : Byte) (s : State) :
    (writePort c i v s).sel = s.sel := by cases c <;> rfl
@[simp] theorem writePort_rstN (c : MirrorClass) (i : Nat) (v : Byte) (s : State) :
    (writePort c i v s).rstN = s.rstN := by cases c <;> rfl
@[simp] theorem writePort_phys (c : MirrorClass) (i : Nat) (v : Byte) (s : State) :
    (writePort c i v s).phys = s.phys := by cases c <;> rfl
@[simp] theorem writePort_commands (c : MirrorClass) (i : Nat) (v : Byte) (s : State) :
    (writePort c i v s).commands = s.commands := by cases c <;> rfl
@[simp] theorem writePort_traceRev (c : MirrorClass) (i : Nat) (v : Byte) (s : State) :
    (writePort c i v s).traceRev = s.traceRev := by cases c <;> rfl
@[simp] theorem writePort_responses (c : MirrorClass) (i : Nat) (v : Byte) (s : State) :
    (writePort c i v s).responses = s.responses := by cases c <;> rfl
@[simp] theorem writePort_chipm_chipm (i : Nat) (v : Byte) (s : State) :
    (writePort .chipm i v s).chipm = s.chipm.write i v := rfl
@[simp] theorem writePort_chipm_chanm (i : Nat) (v : Byte) (s : State) :
    (writePort .chipm i v s).chanm = s.chanm := rfl
@[simp] theorem writePort_chipm_opm (i : Nat) (v : Byte) (s : State) :
    (writePort .chipm i v s).opm = s.opm := rfl
@[simp] theorem writePort_chanm_chipm (i : Nat) (v : Byte) (s : State) :
    (writePort .chanm i v s).chipm = s.chipm := rfl
@[simp] theorem writePort_chanm_chanm (i : Nat) (v : Byte) (s : State) :
    (writePort .chanm i v s).chanm = s.chanm.write i v := rfl
@[simp] theorem writePort_chanm_opm (i : Nat) (v : Byte) (s : State) :
    (writePort .chanm i v s).opm = s.opm := rfl
@[simp] theorem writePort_opm_chipm (i : Nat) (v : Byte) (s : State) :
    (writePort .opm i v s).chipm = s.chipm := rfl
@[simp] theorem writePort_opm_chanm (i : Nat) (v : Byte) (s : State) :
    (writePort .opm i v s).chanm = s.chanm := rfl
@[simp] theorem writePort_opm_opm (i : Nat) (v : Byte) (s : State) :
    (writePort .opm i v s).opm = s.opm.write i v := rfl

@[simp] theorem writeReg_cfg (r : LogicalReg) (v : Byte) (s : State) :
    (writeReg r v s).cfg = s.cfg := by
  cases r <;> rfl
@[simp] theorem writeReg_lifecycle (r : LogicalReg) (v : Byte) (s : State) :
    (writeReg r v s).lifecycle = s.lifecycle := by
  cases r <;> rfl
@[simp] theorem writeReg_sel (r : LogicalReg) (v : Byte) (s : State) :
    (writeReg r v s).sel = physicalUnit (r.bank s.cfg) := by
  cases r <;> rfl
@[simp] theorem writeReg_rstN (r : LogicalReg) (v : Byte) (s : State) :
    (writeReg r v s).rstN = s.rstN := by
  cases r <;> rfl
@[simp] theorem writeReg_chipm (r : LogicalReg) (v : Byte) (s : State) :
    (writeReg r v s).chipm = (writePort r.cls r.index v s).chipm := by
  cases r <;> rfl
@[simp] theorem writeReg_chanm (r : LogicalReg) (v : Byte) (s : State) :
    (writeReg r v s).chanm = (writePort r.cls r.index v s).chanm := by
  cases r <;> rfl
@[simp] theorem writeReg_opm (r : LogicalReg) (v : Byte) (s : State) :
    (writeReg r v s).opm = (writePort r.cls r.index v s).opm := by
  cases r <;> rfl
@[simp] theorem writeReg_phys (r : LogicalReg) (v : Byte) (s : State) :
    (writeReg r v s).phys = s.phys.write (r.physKey s.cfg) v := by
  cases r <;> rfl
@[simp] theorem writeReg_commands (r : LogicalReg) (v : Byte) (s : State) :
    (writeReg r v s).commands = s.commands := by
  cases r <;> rfl
@[simp] theorem writeReg_traceRev (r : LogicalReg) (v : Byte) (s : State) :
    (writeReg r v s).traceRev = .tw (bankBit (r.bank s.cfg)) (r.physReg s.cfg) v :: .sel (physicalUnit (r.bank s.cfg)) :: s.traceRev := by
  cases r <;> rfl
@[simp] theorem writeReg_responses (r : LogicalReg) (v : Byte) (s : State) :
    (writeReg r v s).responses = s.responses := by
  cases r <;> rfl

/-- Two states with equal fields are equal. -/
theorem State.ext_fields {s t : State} (h1 : s.cfg = t.cfg) (h2 : s.lifecycle = t.lifecycle) (h3 : s.sel = t.sel)
    (h4 : s.rstN = t.rstN) (h5 : s.chipm = t.chipm) (h6 : s.chanm = t.chanm) (h7 : s.opm = t.opm)
    (h8 : s.phys = t.phys) (h9 : s.commands = t.commands) (h10 : s.traceRev = t.traceRev)
    (h11 : s.responses = t.responses) : s = t := by
  cases s; cases t; simp_all

/-- The trace in the order of emission grows at its end. -/
@[simp] theorem record_trace (e : Event) (s : State) : (record e s).trace = s.trace ++ [e] := by
  simp [State.trace]

end Sys2Proof.Machine
end

