-- ==== Sys2Proof/Laws/Ops.lean ====
section
/-! SUPPORT. For each shared operation, what it can do: the ports, one register write, a list of register writes (which is
what `RESET` and the mode commands come to), the checks before an effect, and the step. -/

namespace Sys2Proof.Machine

/-! The ports of the shadow register file. -/

/-- A write of one entry is read back there and nowhere else. -/
theorem readPort_writePort (c d : MirrorClass) (i j : Nat) (v : Byte) (s : State) :
    readPort d j (writePort c i v s) = if d = c ∧ j = i then some v else readPort d j s := by
  cases c <;> cases d <;> simp [readPort, Memory.read_write]

theorem readPort_congr {s t : State} (h1 : t.chipm = s.chipm) (h2 : t.chanm = s.chanm) (h3 : t.opm = s.opm)
    (c : MirrorClass) (i : Nat) : readPort c i t = readPort c i s := by
  cases c <;> simp [readPort, h1, h2, h3]

@[simp] theorem readPort_physWrite (c : MirrorClass) (i : Nat) (b : BitVec 2) (r v : Byte) (s : State) :
    readPort c i (physWrite b r v s) = readPort c i s := readPort_congr rfl rfl rfl c i

@[simp] theorem readPort_emitSel (c : MirrorClass) (i : Nat) (b : BitVec 1) (s : State) :
    readPort c i (emitSel b s) = readPort c i s := readPort_congr rfl rfl rfl c i

@[simp] theorem readPort_pulse (c : MirrorClass) (i : Nat) (u : BitVec 1) (s : State) :
    readPort c i (pulse u s) = readPort c i s := readPort_congr rfl rfl rfl c i

/-- The entries after one register write. -/
theorem readPort_writeReg (d : MirrorClass) (j : Nat) (r : LogicalReg) (v : Byte) (s : State) :
    readPort d j (writeReg r v s) = if d = r.cls ∧ j = r.index then some v else readPort d j s := by
  unfold writeReg
  rw [readPort_physWrite, readPort_writePort]

/-- After a register write its mirror entry holds the value and every other register's entry is as before. -/
theorem mirrorRead_writeReg (r' r : LogicalReg) (v : Byte) (s : State) :
    mirrorRead r' (writeReg r v s) = if r' = r then some v else mirrorRead r' s := by
  unfold mirrorRead
  rw [readPort_writeReg]
  by_cases h : r' = r
  · simp [h]
  · rw [if_neg h, if_neg]
    rintro ⟨hc, hi⟩
    exact h (reg_of_entry hc hi)

/-- After a register write the ghost file holds the value at the register's physical location and is as before elsewhere. -/
theorem phys_read_writeReg (k : Nat) (r : LogicalReg) (v : Byte) (s : State) :
    (writeReg r v s).phys.read k = if k = r.physKey s.cfg then some v else s.phys.read k := by
  rw [writeReg_phys, Memory.read_write]

/-- The same for the physical registers of logical registers, under P6. -/
theorem physRead_writeReg {s : State} (h : s.cfg.physInjective = true) (r' r : LogicalReg) (v : Byte) :
    physRead r' (writeReg r v s) = if r' = r then some v else physRead r' s := by
  unfold physRead
  rw [writeReg_cfg, phys_read_writeReg]
  by_cases e : r' = r
  · simp [e]
  · rw [if_neg e, if_neg (fun hk => e (reg_of_physKey h hk))]

/-- A register write keeps the canonical form. -/
theorem canonical_writeReg {s : State} (h : s.canonical = true) (r : LogicalReg) (v : Byte) :
    (writeReg r v s).canonical = true := by
  have hi := index_lt r
  have hk := regPhysKey_lt s.cfg r
  simp only [State.canonical, Bool.and_eq_true] at h ⊢
  obtain ⟨⟨⟨h1, h2⟩, h3⟩, h4⟩ := h
  have h5 : (writeReg r v s).phys.wf 1024 = true := by rw [writeReg_phys]; exact Memory.wf_write v h4 hk
  cases r with
  | chip u p =>
    refine ⟨⟨⟨?_, h2⟩, h3⟩, h5⟩
    rw [writeReg_chipm]; exact Memory.wf_write v h1 hi
  | chan p c =>
    refine ⟨⟨⟨h1, ?_⟩, h3⟩, h5⟩
    rw [writeReg_chanm]; exact Memory.wf_write v h2 hi
  | op p c o =>
    refine ⟨⟨⟨h1, h2⟩, ?_⟩, h5⟩
    rw [writeReg_opm]; exact Memory.wf_write v h3 hi

/-- The trace after one register write: the two events of a set at its end. -/
theorem trace_writeReg (r : LogicalReg) (v : Byte) (s : State) :
    (writeReg r v s).trace = s.trace ++ setEvents s.cfg r v := by
  simp [State.trace, setEvents]

/-! A list of register writes, in order. -/

/-- The listed registers written with the listed values, in order. -/
def writeAll : List (LogicalReg × Byte) → State → State
  | [], s => s
  | (r, v) :: rest, s => writeAll rest (writeReg r v s)

@[simp] theorem writeAll_nil (s : State) : writeAll [] s = s := rfl

@[simp] theorem writeAll_cons (r : LogicalReg) (v : Byte) (ws : List (LogicalReg × Byte)) (s : State) :
    writeAll ((r, v) :: ws) s = writeAll ws (writeReg r v s) := rfl

theorem writeAll_append (ws us : List (LogicalReg × Byte)) (s : State) :
    writeAll (ws ++ us) s = writeAll us (writeAll ws s) := by
  induction ws generalizing s with
  | nil => rfl
  | cons w ws ih => exact ih _

@[simp] theorem writeAll_cfg (ws : List (LogicalReg × Byte)) (s : State) : (writeAll ws s).cfg = s.cfg := by
  induction ws generalizing s with
  | nil => rfl
  | cons w ws ih => rw [writeAll, ih, writeReg_cfg]

@[simp] theorem writeAll_lifecycle (ws : List (LogicalReg × Byte)) (s : State) :
    (writeAll ws s).lifecycle = s.lifecycle := by
  induction ws generalizing s with
  | nil => rfl
  | cons w ws ih => rw [writeAll, ih, writeReg_lifecycle]

@[simp] theorem writeAll_rstN (ws : List (LogicalReg × Byte)) (s : State) : (writeAll ws s).rstN = s.rstN := by
  induction ws generalizing s with
  | nil => rfl
  | cons w ws ih => rw [writeAll, ih, writeReg_rstN]

@[simp] theorem writeAll_commands (ws : List (LogicalReg × Byte)) (s : State) :
    (writeAll ws s).commands = s.commands := by
  induction ws generalizing s with
  | nil => rfl
  | cons w ws ih => rw [writeAll, ih, writeReg_commands]

@[simp] theorem writeAll_responses (ws : List (LogicalReg × Byte)) (s : State) :
    (writeAll ws s).responses = s.responses := by
  induction ws generalizing s with
  | nil => rfl
  | cons w ws ih => rw [writeAll, ih, writeReg_responses]

/-- The selector is left where the last write put it. -/
theorem writeAll_sel_append (ws : List (LogicalReg × Byte)) (r : LogicalReg) (v : Byte) (s : State) :
    (writeAll (ws ++ [(r, v)]) s).sel = physicalUnit (r.bank s.cfg) := by
  rw [writeAll_append]; simp

/-- The trace after a list of writes: the events of each set in order. -/
theorem writeAll_trace (ws : List (LogicalReg × Byte)) (s : State) :
    (writeAll ws s).trace = s.trace ++ ws.flatMap fun w => setEvents s.cfg w.1 w.2 := by
  induction ws generalizing s with
  | nil => simp
  | cons w ws ih => rw [writeAll, ih, trace_writeReg, writeReg_cfg]; simp

/-- An entry that no listed register has is as before. -/
theorem writeAll_readPort_other {ws : List (LogicalReg × Byte)} {d : MirrorClass} {j : Nat}
    (h : ∀ w ∈ ws, ¬(d = w.1.cls ∧ j = w.1.index)) (s : State) :
    readPort d j (writeAll ws s) = readPort d j s := by
  induction ws generalizing s with
  | nil => rfl
  | cons w ws ih =>
    rw [writeAll, ih (fun u hu => h u (List.mem_cons_of_mem _ hu)), readPort_writeReg,
      if_neg (h w List.mem_cons_self)]

theorem writeAll_mirror_other {ws : List (LogicalReg × Byte)} {r : LogicalReg} (h : ∀ w ∈ ws, w.1 ≠ r) (s : State) :
    mirrorRead r (writeAll ws s) = mirrorRead r s :=
  writeAll_readPort_other (fun w hw e => h w hw (reg_of_entry e.1 e.2).symm) s

/-- A physical location that no listed register has is as before. -/
theorem writeAll_phys_other {ws : List (LogicalReg × Byte)} {k : Nat} {s : State}
    (h : ∀ w ∈ ws, w.1.physKey s.cfg ≠ k) : (writeAll ws s).phys.read k = s.phys.read k := by
  induction ws generalizing s with
  | nil => rfl
  | cons w ws ih =>
    rw [writeAll, ih (by intro u hu; rw [writeReg_cfg]; exact h u (List.mem_cons_of_mem _ hu)),
      phys_read_writeReg, if_neg (fun e => h w List.mem_cons_self e.symm)]

/-- With no register listed twice, each listed register's entry holds its value. -/
theorem writeAll_mirror {ws : List (LogicalReg × Byte)} (hn : (ws.map Prod.fst).Nodup) {r : LogicalReg} {v : Byte}
    (h : (r, v) ∈ ws) (s : State) : mirrorRead r (writeAll ws s) = some v := by
  induction ws generalizing s with
  | nil => cases h
  | cons w ws ih =>
    rw [List.map_cons, List.nodup_cons] at hn
    rcases List.mem_cons.mp h with e | h
    · subst e
      rw [writeAll, writeAll_mirror_other, mirrorRead_writeReg, if_pos rfl]
      intro u hu e
      exact hn.1 (List.mem_map.mpr ⟨u, hu, e⟩)
    · rw [writeAll]; exact ih hn.2 h _

/-- The same for the physical registers, under P6. -/
theorem writeAll_phys {ws : List (LogicalReg × Byte)} (hn : (ws.map Prod.fst).Nodup) {s : State}
    (hp : s.cfg.physInjective = true) {r : LogicalReg} {v : Byte} (h : (r, v) ∈ ws) :
    physRead r (writeAll ws s) = some v := by
  induction ws generalizing s with
  | nil => cases h
  | cons w ws ih =>
    rw [List.map_cons, List.nodup_cons] at hn
    rcases List.mem_cons.mp h with e | h
    · subst e
      unfold physRead
      rw [writeAll_cfg, writeAll, writeAll_phys_other, phys_read_writeReg, if_pos rfl]
      intro u hu e
      rw [writeReg_cfg] at e
      exact hn.1 (List.mem_map.mpr ⟨u, hu, reg_of_physKey hp e⟩)
    · rw [writeAll]; exact ih hn.2 (by rwa [writeReg_cfg]) h

/-- A list of writes keeps the canonical form. -/
theorem canonical_writeAll {s : State} (h : s.canonical = true) (ws : List (LogicalReg × Byte)) :
    (writeAll ws s).canonical = true := by
  induction ws generalizing s with
  | nil => exact h
  | cons w ws ih => exact ih (canonical_writeReg h _ _)

/-- `zeroRegs` is a list of writes of 0x00. -/
theorem zeroRegs_eq (rs : List LogicalReg) (s : State) :
    zeroRegs rs s = writeAll (rs.map fun r => (r, 0x00)) s := by
  induction rs generalizing s with
  | nil => rfl
  | cons r rs ih => exact ih _

/-! Checks before an effect. -/

theorem whenReady_of_ready {s : State} (h : s.lifecycle = .ready) (k : Result) : whenReady s k = k := by
  simp [whenReady, h]

theorem whenReady_of_uninitialized {s : State} (h : s.lifecycle = .uninitialized) (k : Result) :
    whenReady s k = .fault .notReady := by simp [whenReady, h]

/-- A checked command that answers a next state was issued while Ready. -/
theorem whenReady_next {s t : State} {k : Result} (h : whenReady s k = .next t) :
    s.lifecycle = .ready ∧ k = .next t := by
  unfold whenReady at h
  split at h
  · next hl => exact ⟨hl, h⟩
  · cases h

/-- A get that answers a next state found the register and its byte, and only responds with it. -/
theorem getLocated_next {x : Except Fault LogicalReg} {s t : State} (h : getLocated x s = .next t) :
    ∃ r v, x = .ok r ∧ mirrorRead r s = some v ∧ t = respond v s := by
  unfold getLocated readEntry at h
  split at h
  · cases h
  · next r =>
    cases hm : mirrorRead r s with
    | none => simp [hm] at h
    | some v =>
      simp only [hm, Host.Outcome.next.injEq] at h
      exact ⟨r, v, rfl, hm, h.symm⟩

/-- A set that answers a next state found the register and wrote it. -/
theorem setLocated_next {x : Except Fault LogicalReg} {v : Byte} {s t : State} (h : setLocated x v s = .next t) :
    ∃ r, x = .ok r ∧ t = writeReg r v s := by
  unfold setLocated at h
  split at h
  · cases h
  · next r =>
    simp only [Host.Outcome.next.injEq] at h
    exact ⟨r, rfl, h.symm⟩

/-! The mode commands. -/

theorem updateField_of_written {mask : Byte} {enable : Bool} {r : LogicalReg} {s : State} {old : Byte}
    (h : mirrorRead r s = some old) :
    updateField mask enable r s = .ok (writeReg r (withField old mask enable) s) := by
  simp [updateField, readEntry, h]

theorem modeByte_congr {s t : State} {q : LogicalReg} (h : mirrorRead q t = mirrorRead q s) (mask : Byte)
    (enable : Bool) : modeByte t mask enable q = modeByte s mask enable q := by simp only [modeByte, h]

/-- With every entry written and no register listed twice, the field updates are a list of writes, each of the byte the
entry held before the list with the field set or cleared. -/
theorem updateFields_of_written {mask : Byte} {enable : Bool} {rs : List LogicalReg} {s : State}
    (hn : rs.Nodup) (hw : ∀ r ∈ rs, written s r = true) :
    updateFields mask enable rs s = .ok (writeAll (rs.map fun r => (r, modeByte s mask enable r)) s) := by
  induction rs generalizing s with
  | nil => rfl
  | cons r rs ih =>
    rw [List.nodup_cons] at hn
    obtain ⟨old, ho⟩ := Option.isSome_iff_exists.mp (hw r List.mem_cons_self)
    have hm : modeByte s mask enable r = withField old mask enable := by simp [modeByte, ho]
    have same : ∀ q ∈ rs, mirrorRead q (writeReg r (withField old mask enable) s) = mirrorRead q s := by
      intro q hq
      rw [mirrorRead_writeReg, if_neg (fun e : q = r => hn.1 (e ▸ hq))]
    rw [updateFields, updateField_of_written ho]
    simp only [List.map_cons, writeAll_cons, hm]
    rw [ih hn.2 (fun q hq => by unfold written; rw [same q hq]; exact hw q (List.mem_cons_of_mem _ hq))]
    congr 2
    exact List.map_congr_left fun q hq => by rw [modeByte_congr (same q hq)]

/-- The writes of a mode command. -/
def modeWrites (s : State) (enable : Bool) (modeRegs panRegs : List LogicalReg) : List (LogicalReg × Byte) :=
  (modeRegs.map fun r => (r, modeByte s s.cfg.opl3EnMask enable r))
    ++ panRegs.map fun r => (r, modeByte s s.cfg.panMask enable r)

/-- A mode command that finds its registers and finds them written is a list of writes; it is a fault otherwise. -/
theorem setMode_eq {us : List (BitVec 1)} {cs : List (Fin 36)} {enable : Bool} {s : State} {en : Fin 5} {pan : Fin 3}
    (hu : us.Nodup) (hc : cs.Nodup) (he : posChip s.cfg s.cfg.opl3EnReg = some en)
    (hp : posChan s.cfg.panBase = some pan) :
    setMode us cs enable s =
      if (modeRegisters s.cfg us ++ panRegisters s.cfg cs).all (written s) then
        .next (writeAll (modeWrites s enable (modeRegisters s.cfg us) (panRegisters s.cfg cs)) s)
      else .fault .unwrittenMirrorRead := by
  have em : modeRegisters s.cfg us = us.map fun u => LogicalReg.chip u en := by simp [modeRegisters, he]
  have ep : panRegisters s.cfg cs = cs.map fun c => LogicalReg.chan pan c := by simp [panRegisters, hp]
  unfold setMode
  simp only [he, hp]
  rw [← em, ← ep]
  split
  · next hall =>
    rw [List.all_eq_true] at hall
    have nm : (modeRegisters s.cfg us).Nodup := by
      rw [em]; exact hu.map (fun a b e => by cases e; rfl)
    have np : (panRegisters s.cfg cs).Nodup := by
      rw [ep]; exact hc.map (fun a b e => by cases e; rfl)
    rw [updateFields_of_written nm (fun r hr => hall r (List.mem_append_left _ hr))]
    simp only
    have same : ∀ q ∈ panRegisters s.cfg cs, mirrorRead q
        (writeAll ((modeRegisters s.cfg us).map fun r => (r, modeByte s s.cfg.opl3EnMask enable r)) s)
          = mirrorRead q s := by
      intro q hq
      refine writeAll_mirror_other (fun w hw e => ?_) s
      obtain ⟨r, hr, rfl⟩ := List.mem_map.mp hw
      rw [em] at hr
      rw [ep] at hq
      obtain ⟨u, _, rfl⟩ := List.mem_map.mp hr
      obtain ⟨c, _, rfl⟩ := List.mem_map.mp hq
      cases e
    rw [updateFields_of_written np
      (fun q hq => by unfold written; rw [same q hq]; exact hall q (List.mem_append_right _ hq))]
    simp only [modeWrites, writeAll_append]
    congr 2
    exact List.map_congr_left fun q hq => by rw [modeByte_congr (same q hq)]
  · rfl

/-! `RESET`, for any list of registers to zero: with the list a variable, no proof unfolds its 478 writes. -/

/-- Both pulses, a write of 0x00 to each listed register, the parking of the selector. -/
def zeroed (rs : List LogicalReg) (s : State) : State :=
  emitSel 0 (writeAll (rs.map fun r => (r, 0x00)) (pulse 1 (pulse 0 s)))

/-- `RESET` while Ready. -/
theorem exec_reset_of_ready {s : State} (h : s.lifecycle = .ready) :
    exec .reset s = .next (zeroed allRegisters s) := by
  have e : exec .reset s = whenReady s (.next (emitSel 0 (zeroRegs allRegisters (pulse 1 (pulse 0 s))))) := rfl
  rw [e, whenReady_of_ready h, zeroRegs_eq]
  rfl

theorem zeroed_cfg (rs : List LogicalReg) (s : State) : (zeroed rs s).cfg = s.cfg := by simp [zeroed]

theorem zeroed_lifecycle (rs : List LogicalReg) (s : State) : (zeroed rs s).lifecycle = s.lifecycle := by
  simp [zeroed]

theorem zeroed_sel (rs : List LogicalReg) (s : State) : (zeroed rs s).sel = 0 := by simp [zeroed]

theorem zeroed_rstN (rs : List LogicalReg) (s : State) : (zeroed rs s).rstN = 1 := by simp [zeroed]

theorem zeroed_commands (rs : List LogicalReg) (s : State) : (zeroed rs s).commands = s.commands := by
  simp [zeroed]

theorem zeroed_responses (rs : List LogicalReg) (s : State) : (zeroed rs s).responses = s.responses := by
  simp [zeroed]

theorem trace_pulse (u : BitVec 1) (s : State) : (pulse u s).trace = s.trace ++ pulseEvents s.cfg u := by
  simp [State.trace, pulseEvents]

theorem zeroed_trace (rs : List LogicalReg) (s : State) :
    (zeroed rs s).trace = s.trace ++ zeroingEvents s.cfg rs := by
  have e : (zeroed rs s).trace
      = (writeAll (rs.map fun r => (r, (0x00 : Byte))) (pulse 1 (pulse 0 s))).trace ++ [.sel 0] := record_trace _ _
  rw [e, writeAll_trace, trace_pulse, trace_pulse, pulse_cfg, pulse_cfg]
  simp [zeroingEvents, List.flatMap_map]

/-- Each listed register's entry is 0x00 after it. -/
theorem zeroed_mirror {rs : List LogicalReg} (hn : rs.Nodup) {r : LogicalReg} (h : r ∈ rs) (s : State) :
    mirrorRead r (zeroed rs s) = some 0x00 := by
  have e : mirrorRead r (zeroed rs s)
      = mirrorRead r (writeAll (rs.map fun r => (r, (0x00 : Byte))) (pulse 1 (pulse 0 s))) := readPort_emitSel _ _ _ _
  rw [e]
  exact writeAll_mirror (by simpa [Function.comp_def] using hn) (List.mem_map.mpr ⟨r, h, rfl⟩) _

/-- An entry of no listed register is as before. -/
theorem zeroed_readPort_other {rs : List LogicalReg} {c : MirrorClass} {i : Nat}
    (h : ∀ r ∈ rs, ¬(c = r.cls ∧ i = r.index)) (s : State) : readPort c i (zeroed rs s) = readPort c i s := by
  unfold zeroed
  rw [readPort_emitSel, writeAll_readPort_other, readPort_pulse, readPort_pulse]
  intro w hw
  obtain ⟨r, hr, rfl⟩ := List.mem_map.mp hw
  exact h r hr

theorem writeAll_zero_phys {rs : List LogicalReg} {k : Nat} {s : State}
    (h : (∃ r ∈ rs, r.physKey s.cfg = k) ∨ s.phys.read k = some 0x00) :
    (writeAll (rs.map fun r => (r, (0x00 : Byte))) s).phys.read k = some 0x00 := by
  induction rs generalizing s with
  | nil => simpa using h
  | cons q rs ih =>
    rw [List.map_cons, writeAll_cons]
    refine ih ?_
    rw [phys_read_writeReg, writeReg_cfg]
    rcases h with ⟨r, hr, hk⟩ | h
    · rcases List.mem_cons.mp hr with e | hr
      · subst e; right; rw [if_pos hk.symm]
      · exact .inl ⟨r, hr, hk⟩
    · right; split <;> simp [h]

/-- Each listed register's physical location is 0x00 after it. -/
theorem zeroed_phys {rs : List LogicalReg} {r : LogicalReg} (h : r ∈ rs) (s : State) :
    physRead r (zeroed rs s) = some 0x00 := by
  unfold physRead
  rw [zeroed_cfg]
  refine writeAll_zero_phys (.inl ⟨r, h, ?_⟩)
  rw [pulse_cfg, pulse_cfg]

/-- A physical location of no listed register is unknown after it. -/
theorem zeroed_phys_other {rs : List LogicalReg} {k : Nat} {s : State} (h : ∀ r ∈ rs, r.physKey s.cfg ≠ k) :
    (zeroed rs s).phys.read k = none := by
  unfold zeroed
  rw [emitSel_phys, writeAll_phys_other, pulse_phys]
  · rfl
  · intro w hw
    obtain ⟨r, hr, rfl⟩ := List.mem_map.mp hw
    exact h r hr

theorem canonical_zeroed {s : State} (h : s.canonical = true) (rs : List LogicalReg) :
    (zeroed rs s).canonical = true := by
  have hp : (pulse 1 (pulse 0 s)).canonical = true := by
    simp only [State.canonical, Bool.and_eq_true] at h ⊢
    exact ⟨h.1, rfl⟩
  exact canonical_writeAll hp _

/-- `SET3U` while Ready, for parameters that pass P2 and P3. -/
theorem exec_set3u_of_ready {s : State} (h : s.lifecycle = .ready) {en : Fin 5} {pan : Fin 3}
    (he : posChip s.cfg s.cfg.opl3EnReg = some en) (hp : posChan s.cfg.panBase = some pan) (unit : BitVec 1)
    (enable : Bool) :
    exec (.set3u unit enable) s =
      if (entriesRead s.cfg (.set3u unit enable)).all (written s) then
        .next (writeAll (modeWrites s enable (modeRegisters s.cfg [unit])
          (panRegisters s.cfg (channelsOfUnit unit))) s)
      else .fault .unwrittenMirrorRead := by
  have e : exec (.set3u unit enable) s = whenReady s (setMode [unit] (channelsOfUnit unit) enable s) := rfl
  rw [e, whenReady_of_ready h, setMode_eq (List.nodup_singleton unit) (channelsOfUnit_nodup unit) he hp]
  rfl

/-- `SET3` while Ready, for parameters that pass P2 and P3. -/
theorem exec_set3_of_ready {s : State} (h : s.lifecycle = .ready) {en : Fin 5} {pan : Fin 3}
    (he : posChip s.cfg s.cfg.opl3EnReg = some en) (hp : posChan s.cfg.panBase = some pan) (enable : Bool) :
    exec (.set3 enable) s =
      if (entriesRead s.cfg (.set3 enable)).all (written s) then
        .next (writeAll (modeWrites s enable (modeRegisters s.cfg units) (panRegisters s.cfg allChannels)) s)
      else .fault .unwrittenMirrorRead := by
  have e : exec (.set3 enable) s = whenReady s (setMode units allChannels enable s) := rfl
  rw [e, whenReady_of_ready h, setMode_eq units_nodup allChannels_nodup he hp]
  rfl

/-! The step. -/

/-- A step with a command issued takes it, decodes it and runs it. -/
theorem step_of_command {s : State} {w : Word} {rest : List Word} {i : Instr} (h : s.commands = w :: rest)
    (hd : decode w = .command i) : step s = exec i { s with commands := rest } := by
  simp [step, takeCommand, h, hd]

/-- Everything a step that answers a next state can be: nothing issued and nothing changed, or one command executed. -/
theorem step_next {s t : State} (h : step s = .next t) :
    (s.commands = [] ∧ t = s) ∨
      ∃ w rest i, s.commands = w :: rest ∧ decode w = .command i ∧ exec i { s with commands := rest } = .next t := by
  unfold step takeCommand at h
  split at h
  · next hc =>
    split at hc
    · next hl => simp only [Host.Outcome.next.injEq] at h; exact .inl ⟨hl, h.symm⟩
    · cases hc
  · next w u hc =>
    split at hc
    · cases hc
    · next w' rest hl =>
      simp only [Option.some.injEq, Prod.mk.injEq] at hc
      obtain ⟨rfl, rfl⟩ := hc
      split at h
      · next i hd => exact .inr ⟨w', rest, i, hl, hd, h⟩
      · cases h
      · cases h

end Sys2Proof.Machine
end

