-- ==== Sys2Proof/Laws/Exec.lean ====
section
/-! SUPPORT. Everything an instruction that completes can do, said once, and how many registers the controller's lists hold. -/

namespace Sys2Proof.Machine

theorem next_inj {s t : State} (h : (.next s : Result) = .next t) : s = t := Host.Outcome.next.inj h

theorem channelsOfUnit_length : ∀ u : BitVec 1, (channelsOfUnit u).length = 18 := by decide

theorem allChannels_length : allChannels.length = 36 := by decide

/-- Every command but `BEGIN` checks the lifecycle before anything else. -/
theorem exec_checked (i : Instr) (s : State) (hi : i ≠ .begin) : ∃ k, exec i s = whenReady s k := by
  cases i <;> first | exact absurd rfl hi | exact ⟨_, rfl⟩

/-- A mode command that completes is a list of writes, two for each register it reads, and its parameters pass P2 and
P3. -/
theorem setMode_next {us : List (BitVec 1)} {cs : List (Fin 36)} {enable : Bool} {s t : State} (hu : us.Nodup)
    (hc : cs.Nodup) (h : setMode us cs enable s = .next t) :
    ∃ ws, t = writeAll ws s ∧ ws.length = us.length + cs.length := by
  cases he : posChip s.cfg s.cfg.opl3EnReg with
  | none => simp [setMode, he] at h
  | some en =>
    cases hp : posChan s.cfg.panBase with
    | none => simp [setMode, he, hp] at h
    | some pan =>
      rw [setMode_eq hu hc he hp] at h
      split at h
      · refine ⟨_, (next_inj h).symm, ?_⟩
        simp [modeWrites, modeRegisters, panRegisters, he, hp]
      · cases h

/-- A command that completes is `BEGIN`, or `RESET`, or a get or query that answers one byte, or a list of register writes
(one for a set, 19 for `SET3U`, 38 for `SET3`), two events for each. -/
theorem exec_next {i : Instr} {s t : State} (h : exec i s = .next t) :
    (s.lifecycle = .uninitialized ∧ i = .begin ∧
      t = { emitTsetup (emitRst 1 (emitSel 0 s)) with lifecycle := .ready }) ∨
    (s.lifecycle = .ready ∧ i = .reset ∧ t = zeroed allRegisters s) ∨
    (s.lifecycle = .ready ∧ responseCount i = 1 ∧ eventCount i = 0 ∧ ∃ v, t = respond v s) ∨
    (s.lifecycle = .ready ∧ responseCount i = 0 ∧ i ≠ .begin ∧ i ≠ .reset ∧
      ∃ ws, t = writeAll ws s ∧ eventCount i = 2 * ws.length) := by
  by_cases hb : i = .begin
  · subst hb
    left
    cases hl : s.lifecycle with
    | ready => simp [exec, execBegin, hl] at h
    | uninitialized =>
      simp only [exec, execBegin, hl] at h
      exact ⟨rfl, rfl, (next_inj h).symm⟩
  right
  obtain ⟨k, hk⟩ := exec_checked i s hb
  have hl := (whenReady_next (hk ▸ h)).1
  cases i with
  | begin => exact absurd rfl hb
  | reset =>
    rw [exec_reset_of_ready hl] at h
    exact .inl ⟨hl, rfl, (next_inj h).symm⟩
  | getchip unit reg =>
    obtain ⟨_, h⟩ := whenReady_next (k := getLocated (locateChip s.cfg unit reg) s) h
    obtain ⟨r, v, _, _, ht⟩ := getLocated_next h
    exact .inr (.inl ⟨hl, rfl, rfl, v, ht⟩)
  | getchan base channel =>
    obtain ⟨_, h⟩ := whenReady_next (k := getLocated (locateChan base channel) s) h
    obtain ⟨r, v, _, _, ht⟩ := getLocated_next h
    exact .inr (.inl ⟨hl, rfl, rfl, v, ht⟩)
  | getop base channel op =>
    obtain ⟨_, h⟩ := whenReady_next (k := getLocated (locateOp base channel op) s) h
    obtain ⟨r, v, _, _, ht⟩ := getLocated_next h
    exact .inr (.inl ⟨hl, rfl, rfl, v, ht⟩)
  | setchip unit reg value =>
    obtain ⟨_, h⟩ := whenReady_next (k := setLocated (locateChip s.cfg unit reg) value s) h
    obtain ⟨r, _, ht⟩ := setLocated_next h
    exact .inr (.inr ⟨hl, rfl, hb, by simp, [(r, value)], ht, rfl⟩)
  | setchan base channel value =>
    obtain ⟨_, h⟩ := whenReady_next (k := setLocated (locateChan base channel) value s) h
    obtain ⟨r, _, ht⟩ := setLocated_next h
    exact .inr (.inr ⟨hl, rfl, hb, by simp, [(r, value)], ht, rfl⟩)
  | setop base channel op value =>
    obtain ⟨_, h⟩ := whenReady_next (k := setLocated (locateOp base channel op) value s) h
    obtain ⟨r, _, ht⟩ := setLocated_next h
    exact .inr (.inr ⟨hl, rfl, hb, by simp, [(r, value)], ht, rfl⟩)
  | q3u unit =>
    simp only [exec, execQ3u, whenReady_of_ready hl] at h
    split at h
    · cases h
    · exact .inr (.inl ⟨hl, rfl, rfl, _, (next_inj h).symm⟩)
  | q3 =>
    simp only [exec, execQ3, whenReady_of_ready hl] at h
    split at h
    · cases h
    · cases h
    · exact .inr (.inl ⟨hl, rfl, rfl, _, (next_inj h).symm⟩)
  | set3u unit enable =>
    obtain ⟨_, h⟩ := whenReady_next (k := setMode [unit] (channelsOfUnit unit) enable s) h
    obtain ⟨ws, ht, hn⟩ := setMode_next (List.nodup_singleton unit) (channelsOfUnit_nodup unit) h
    refine .inr (.inr ⟨hl, rfl, hb, by simp, ws, ht, ?_⟩)
    rw [hn, channelsOfUnit_length]
    rfl
  | set3 enable =>
    obtain ⟨_, h⟩ := whenReady_next (k := setMode units allChannels enable s) h
    obtain ⟨ws, ht, hn⟩ := setMode_next units_nodup allChannels_nodup h
    refine .inr (.inr ⟨hl, rfl, hb, by simp, ws, ht, ?_⟩)
    rw [hn, allChannels_length]
    rfl

end Sys2Proof.Machine
end

