-- ==== Sys2Proof/Laws/PerInstr.lean ====
section
/-! SUPPORT. Statements about every instruction as syntax, one lemma per constructor: the word of an instruction matches the
row of the opcode table the instruction belongs to (R85). -/

namespace Sys2Proof.Laws.TableRow

/-- The encoded word, under the row's mask, is the row's pattern. -/
def Statement (i : Instr) : Prop := encode i &&& i.row.mask = i.row.pattern

/-- It is enough to compare field by field. -/
theorem of_fields {i : Instr} (mask pattern : Word) (hm : i.row.mask = mask) (hp : i.row.pattern = pattern)
    (h : splitWord (joinWord (encodeFields i) &&& mask) = splitWord pattern) : Statement i := by
  unfold Statement
  rw [hm, hp]
  exact splitWord_inj h

theorem begin : Statement .begin := by unfold Statement; decide

theorem reset : Statement .reset := by unfold Statement; decide

theorem getchip (unit : BitVec 1) (reg : BitVec 9) : Statement (.getchip unit reg) := by
  refine of_fields 0xF7FE00FF 0x30000000 rfl rfl ?_
  rw [splitWord_and, splitWord_joinWord]
  simp [splitWord, encodeFields]

theorem setchip (unit : BitVec 1) (reg : BitVec 9) (value : Byte) : Statement (.setchip unit reg value) := by
  refine of_fields 0xF7FE0000 0x40000000 rfl rfl ?_
  rw [splitWord_and, splitWord_joinWord]
  simp [splitWord, encodeFields]

theorem regTop_masked (base : Byte) : baseField base &&& 0x100 = 0 := by
  apply BitVec.eq_of_getElem_eq
  intro i hi
  interval_cases i <;> simp [baseField]

theorem valTop_masked (enable : Bool) : enableField enable &&& 0xFE = 0 := by cases enable <;> decide

theorem getchan (base : Byte) (channel : BitVec 6) : Statement (.getchan base channel) := by
  refine of_fields 0xFC0F00FF 0x50000000 rfl rfl ?_
  rw [splitWord_and, splitWord_joinWord]
  simpa [splitWord, encodeFields] using regTop_masked base

theorem setchan (base : Byte) (channel : BitVec 6) (value : Byte) : Statement (.setchan base channel value) := by
  refine of_fields 0xFC0F0000 0x60000000 rfl rfl ?_
  rw [splitWord_and, splitWord_joinWord]
  simpa [splitWord, encodeFields] using regTop_masked base

theorem getop (base : Byte) (channel : BitVec 6) (op : BitVec 1) : Statement (.getop base channel op) := by
  refine of_fields 0xF80F00FF 0x70000000 rfl rfl ?_
  rw [splitWord_and, splitWord_joinWord]
  simpa [splitWord, encodeFields] using regTop_masked base

theorem setop (base : Byte) (channel : BitVec 6) (op : BitVec 1) (value : Byte) :
    Statement (.setop base channel op value) := by
  refine of_fields 0xF80F0000 0x80000000 rfl rfl ?_
  rw [splitWord_and, splitWord_joinWord]
  simpa [splitWord, encodeFields] using regTop_masked base

theorem q3u (unit : BitVec 1) : Statement (.q3u unit) := by
  refine of_fields 0xF7FFFFFF 0x90000000 rfl rfl ?_
  rw [splitWord_and, splitWord_joinWord]
  simp [splitWord, encodeFields]

theorem q3 : Statement .q3 := by unfold Statement; decide

theorem set3u (unit : BitVec 1) (enable : Bool) : Statement (.set3u unit enable) := by
  refine of_fields 0xF7FFFFFE 0xB0000000 rfl rfl ?_
  rw [splitWord_and, splitWord_joinWord]
  simpa [splitWord, encodeFields] using valTop_masked enable

theorem set3 (enable : Bool) : Statement (.set3 enable) := by cases enable <;> (unfold Statement; decide)

end Sys2Proof.Laws.TableRow
end

