-- ==== Sys2Proof/Tests/Slice0.lean ====
section
/-! SUPPORT. Tests with results from the spec's vectors (95_test_vectors.md, ids E, T and P), and for each obligation that
has hypotheses a concrete input that meets all of them, clause by clause. -/

namespace Sys2Proof.Tests

open Sys2Proof Sys2Proof.Machine

/-! The states the tests start from. -/

/-- Ready, with no mirror entry written and nothing emitted. -/
def begun : State := { State.reset with lifecycle := .ready }

/-- Ready, with the listed entries written. -/
def holding (chipm chanm opm : Memory) : State := { begun with chipm := chipm, chanm := chanm, opm := opm }

/-- Ready, with both units' mode entries 0x00 and the panning entries of all channels 0x00 but channel 3's, which is 0x0E. -/
def modeState : State :=
  holding [(2, 0x00), (7, 0x00)] ((List.range 36).map fun c => (3 * c + 2, if c = 3 then 0x0E else 0x00)) []

/-- The state after `RESET`; the tests cite laws about it and evaluate nothing of it. -/
def full : State := zeroed allRegisters begun

/-- The next state, if the outcome is one. -/
def after : Result → Option State
  | .next t => some t
  | .fault _ => none
  | .refused _ => none

/-- The violation, if the outcome is one. -/
def stop : Result → Option Fault
  | .next _ => none
  | .fault f => some f
  | .refused _ => none

theorem full_cfg : full.cfg = Config.default := zeroed_cfg _ _

theorem full_ready : full.lifecycle = .ready := zeroed_lifecycle _ _

theorem full_wf : full.cfg.wf = true := by rw [full_cfg]; exact default_wf

theorem full_complete : full.mirrorComplete := fun r =>
  ⟨0x00, zeroed_mirror allRegisters_nodup (mem_allRegisters r) begun⟩

theorem full_agrees : full.mirrorAgrees := fun r v h => by
  have e : mirrorRead r full = some 0x00 := zeroed_mirror allRegisters_nodup (mem_allRegisters r) begun
  rw [e] at h
  rw [← h]
  exact zeroed_phys (mem_allRegisters r) begun

theorem full_canonical : full.canonical = true := canonical_zeroed rfl _

/-! WellFormed: a configuration each check refuses, and a command outside the contract for each of its conditions. -/

/-- P1: a register number twice. -/
theorem test_wf_refuses_repeated_chip_register :
    { Config.default with chipRegs := #v[0x001, 0x104, 0x105, 0x001, 0x0BD] }.chipRegsDistinct = false := by decide

/-- P1: all nine bits count, so 0x004 beside 0x104 is no repeat. -/
theorem test_wf_takes_nine_bits :
    { Config.default with chipRegs := #v[0x004, 0x104, 0x105, 0x008, 0x0BD] }.chipRegsDistinct = true := by decide

/-- P2. -/
theorem test_wf_refuses_unknown_enable_register :
    { Config.default with opl3EnReg := 0x005 }.enRegKnown = false := by decide

/-- P3. -/
theorem test_wf_refuses_unknown_panning_base : { Config.default with panBase := 0x20 }.panBaseKnown = false := by decide

/-- P4: an enable mask of two bits, and a panning mask of one. -/
theorem test_wf_refuses_masks :
    { Config.default with opl3EnMask := 0x03 }.masksOk = false ∧
    { Config.default with panMask := 0x10 }.masksOk = false := by decide

/-- P5: 0xE0 + 8 + 0x18 is 0x100; one less fits. -/
theorem test_wf_refuses_spacing_above_a_byte :
    { Config.default with
      opSpacing := #v[#v[0, 0, 0, 0, 0, 0, 0, 0, 0x18], #v[0, 0, 0, 0, 0, 0, 0, 0, 0]] }.spacingFits = false ∧
    { Config.default with
      opSpacing := #v[#v[0, 0, 0, 0, 0, 0, 0, 0, 0x17], #v[0, 0, 0, 0, 0, 0, 0, 0, 0]] }.spacingFits = true := by decide

/-- The spacing table of T40 that is keyed by the operator alone. -/
def flatSpacing : Config :=
  { Config.default with opSpacing := #v[#v[0, 0, 0, 0, 0, 0, 0, 0, 0], #v[3, 3, 3, 3, 3, 3, 3, 3, 3]] }

/-- P6, T40: it sends the operator registers of channel 0 operator 1 and channel 3 operator 0 to one place. -/
theorem test_wf_refuses_colliding_registers : flatSpacing.physInjective = false := by
  cases h : flatSpacing.physInjective with
  | false => rfl
  | true =>
    have e : LogicalReg.op 0 0 1 = LogicalReg.op 0 3 0 := reg_of_physKey h (by decide)
    exact absurd e (by decide)

/-- R8: a reset pulse of no tick. -/
theorem test_wf_refuses_zero_ticks : { Config.default with resetTicks := 0 }.ticksOk = false := by decide

/-- T40: the defaults pass every check. -/
theorem test_wf_takes_the_defaults : Config.default.wf = true := default_wf

/-- T27 to T33: the commands outside the contract, each beside the nearest one inside it. -/
theorem test_contract :
    (Instr.setchan 0xB0 36 0x00).inContract Config.default = false ∧
    (Instr.setchan 0xB0 35 0x00).inContract Config.default = true ∧
    (Instr.getchan 0x20 0).inContract Config.default = false ∧
    (Instr.getop 0x20 0 0).inContract Config.default = true ∧
    (Instr.setop 0xA0 0 0 0x00).inContract Config.default = false ∧
    (Instr.setchan 0xA0 0 0x00).inContract Config.default = true ∧
    (Instr.setchip 0 0x004 0x00).inContract Config.default = false ∧
    (Instr.setchip 0 0x104 0x00).inContract Config.default = true := by decide

/-! Decoding: words the spec writes out, one or more for each constructor, then the reserved ones. -/

theorem test_decode_controller :
    decode 0x10000000 = .command .begin ∧ decode 0x20000000 = .command .reset ∧
    decode 0x98000000 = .command (.q3u 1) ∧ decode 0x90000000 = .command (.q3u 0) ∧
    decode 0xA0000000 = .command .q3 ∧
    decode 0xB8000001 = .command (.set3u 1 true) ∧ decode 0xB0000000 = .command (.set3u 0 false) ∧
    decode 0xC0000001 = .command (.set3 true) ∧ decode 0xC0000000 = .command (.set3 false) := by decide

theorem test_decode_chip :
    decode 0x38010500 = .command (.getchip 1 0x105) ∧ decode 0x3000BD00 = .command (.getchip 0 0x0BD) ∧
    decode 0x48010501 = .command (.setchip 1 0x105 0x01) ∧ decode 0x4000BDC0 = .command (.setchip 0 0x0BD 0xC0) := by decide

theorem test_decode_channel :
    decode 0x5230B000 = .command (.getchan 0xB0 35) ∧ decode 0x53F0B000 = .command (.getchan 0xB0 63) ∧
    decode 0x6090B031 = .command (.setchan 0xB0 9 0x31) ∧ decode 0x6080A0FF = .command (.setchan 0xA0 8 0xFF) := by decide

theorem test_decode_operator :
    decode 0x76304000 = .command (.getop 0x40 35 1) ∧ decode 0x72304000 = .command (.getop 0x40 35 0) ∧
    decode 0x8630403F = .command (.setop 0x40 35 1 0x3F) ∧ decode 0x8040E007 = .command (.setop 0xE0 4 0 0x07) := by decide

/-- T38. -/
theorem test_decode_reserved_opcode :
    decode 0x00000000 = .reservedOpcode ∧ decode 0xD0000000 = .reservedOpcode ∧ decode 0xE0000000 = .reservedOpcode ∧
    decode 0xF0000000 = .reservedOpcode := by decide

/-- T39. -/
theorem test_decode_must_be_zero :
    decode 0x10000001 = .mustBeZero ∧ decode 0x6092B031 = .mustBeZero ∧ decode 0x6091B031 = .mustBeZero ∧
    decode 0x6890B031 = .mustBeZero ∧ decode 0x5090B031 = .mustBeZero ∧ decode 0x34010500 = .mustBeZero ∧
    decode 0xC0000002 = .mustBeZero := by decide

/-- Words from the spec, encoded. -/
theorem test_encode :
    encode (.setchan 0xB0 18 0x31) = 0x6120B031 ∧ encode (.setop 0x40 35 1 0x3F) = 0x8630403F ∧
    encode (.getchip 1 0x105) = 0x38010500 ∧ encode (.set3u 1 true) = 0xB8000001 := by decide

/-- The rows of R85 are pairwise disjoint: two rows differ in a bit that both masks fix. -/
theorem test_rows_disjoint : ∀ m n : Fin 12, m ≠ n →
    opcodeTable[m].pattern &&& opcodeTable[n].mask ≠ opcodeTable[n].pattern &&& opcodeTable[m].mask := by decide

/-- T4: the default spacing gives the offsets of the spec's table. -/
theorem test_default_spacing :
    ((List.range 9).map fun cm => cm + spacingOf Config.default 0 cm) = [0, 1, 2, 8, 9, 10, 16, 17, 18] ∧
    ((List.range 9).map fun cm => cm + spacingOf Config.default 1 cm) = [3, 4, 5, 11, 12, 13, 19, 20, 21] := by decide

/-! The address mapper: rows of T1, T2, T3, T5. -/

theorem test_mapper_channels :
    (channelOffset 1 9, bankOf 9, chanPhysReg 0xB0 9) = (28, 1, 0xB0) ∧
    (channelOffset 0 17, bankOf 17, chanPhysReg 0xA0 17) = (51, 1, 0xA8) ∧
    (channelOffset 1 18, bankOf 18, chanPhysReg 0xB0 18) = (55, 2, 0xB0) ∧
    (channelOffset 2 35, bankOf 35, chanPhysReg 0xC0 35) = (107, 3, 0xC8) := by decide

theorem test_mapper_operators :
    (operatorOffset 4 4 0, bankOf 4, opPhysReg Config.default 0xE0 4 0) = (44, 0, 0xE9) ∧
    (operatorOffset 0 8 1, bankOf 8, opPhysReg Config.default 0x20 8 1) = (85, 0, 0x35) ∧
    (operatorOffset 3 17 1, bankOf 17, opPhysReg Config.default 0x80 17 1) = (178, 1, 0x95) ∧
    (operatorOffset 4 35 1, bankOf 35, opPhysReg Config.default 0xE0 35 1) = (359, 3, 0xF5) := by decide

theorem test_mapper_chip :
    (chipBank 0 0x001, chipPhysReg 0x001) = (0, 0x01) ∧ (chipBank 0 0x104, chipPhysReg 0x104) = (1, 0x04) ∧
    (chipBank 1 0x105, chipPhysReg 0x105) = (3, 0x05) ∧ (chipBank 1 0x0BD, chipPhysReg 0x0BD) = (2, 0xBD) ∧
    posChip Config.default 0x105 = some 2 ∧ posChip Config.default 0x0BD = some 4 := by decide

theorem test_units_of_channels :
    ([0, 8, 9, 17].map unitOfChannel, [18, 26, 27, 35].map unitOfChannel) = ([0, 0, 0, 0], [1, 1, 1, 1]) := by decide

/-! Steps. -/

/-- T20. -/
theorem test_begin :
    (after (exec .begin State.reset)).map (fun t => (t.lifecycle, t.trace)) =
      some (.ready, [.sel 0, .rst 1, .tsetup]) := by decide

/-- T35. -/
theorem test_begin_twice : stop (exec .begin begun) = some .alreadyReady := by decide

/-- T20: events 1 to 12 of `RESET`, here with the first two registers of the order. -/
theorem test_reset_first_events :
    (zeroingEvents Config.default (allRegisters.take 2)).take 12 =
      [.sel 0, .rst 0, .delay 1, .rst 1, .sel 1, .rst 0, .delay 1, .rst 1,
        .sel 0, .tw 0 0x01 0x00, .sel 0, .tw 1 0x04 0x00] := by decide +kernel

/-- T20: the last three registers of the order. -/
theorem test_reset_last_registers :
    (allRegisters.drop 475).flatMap (fun r => setEvents Config.default r 0x00) =
      [.sel 1, .tw 1 0x75 0x00, .sel 1, .tw 1 0x95 0x00, .sel 1, .tw 1 0xF5 0x00] := by decide +kernel

/-- T18. -/
theorem test_getchip :
    (after (exec (.getchip 1 0x105) (holding [(2, 0x00), (7, 0x01)] [] []))).map State.responses = some [0x01] ∧
    (after (exec (.getchip 0 0x105) (holding [(2, 0x00), (7, 0x01)] [] []))).map State.responses = some [0x00] := by decide

/-- T18, T28. -/
theorem test_getchan :
    (after (exec (.getchan 0xB0 9) (holding [] [(1, 0x00), (28, 0x31)] []))).map State.responses = some [0x31] ∧
    stop (exec (.getchan 0xB0 63) begun) = some .channelOutOfRange := by decide

/-- T18, T32. -/
theorem test_getop :
    (after (exec (.getop 0x40 35 1) (holding [] [] [(351, 0x00), (356, 0x3F)]))).map State.responses = some [0x3F] ∧
    stop (exec (.getop 0xC0 0 1) begun) = some .unrecognizedOperatorBase := by decide

/-- P5: an entry that nothing has written. -/
theorem test_get_unwritten :
    stop (exec (.getchan 0xB0 1) (holding [] [(1, 0x55)] [])) = some .unwrittenMirrorRead := by decide

/-- T14. -/
theorem test_setchip :
    (after (exec (.setchip 1 0x105 0x01) begun)).map (fun t => (t.chipm, t.trace, t.phys)) =
      some ([(7, 0x01)], [.sel 1, .tw 1 0x05 0x01], [(0x305, 0x01)]) := by decide

/-- T33, T15. -/
theorem test_setchip_nine_bits :
    stop (exec (.setchip 0 0x004 0x00) begun) = some .unrecognizedChipReg ∧
    (after (exec (.setchip 0 0x0BD 0xC0) begun)).map (fun t => (t.chipm, t.trace)) =
      some ([(4, 0xC0)], [.sel 0, .tw 0 0xBD 0xC0]) := by decide

/-- E4, T6. -/
theorem test_setchan_bank_rollover :
    (after (exec (.setchan 0xB0 9 0x31) begun)).map (fun t => (t.chanm, t.trace, t.phys)) =
      some ([(28, 0x31)], [.sel 0, .tw 1 0xB0 0x31], [(0x1B0, 0x31)]) := by decide

/-- E5, T7. -/
theorem test_setchan_chip_boundary :
    (after (exec (.setchan 0xB0 18 0x31) begun)).map (fun t => (t.chanm, t.trace, t.sel)) =
      some ([(55, 0x31)], [.sel 1, .tw 0 0xB0 0x31], 1) := by decide

/-- T12, T13. -/
theorem test_setop :
    (after (exec (.setop 0x40 35 1 0x3F) begun)).map (fun t => (t.opm, t.trace)) =
      some ([(356, 0x3F)], [.sel 1, .tw 1 0x55 0x3F]) ∧
    (after (exec (.setop 0xE0 4 0 0x07) begun)).map (fun t => (t.opm, t.trace)) =
      some ([(44, 0x07)], [.sel 0, .tw 0 0xE9 0x07]) := by decide

/-- The check order of R183: channel before base, and both after the lifecycle. -/
theorem test_check_order :
    stop (exec (.setchan 0xB1 36 0x00) begun) = some .channelOutOfRange ∧
    stop (exec (.setchan 0xB1 35 0x00) begun) = some .unrecognizedChannelBase ∧
    stop (exec (.setchan 0xB1 36 0x00) State.reset) = some .notReady := by decide

/-- T22: only the masked bit counts. -/
theorem test_q3u :
    (after (exec (.q3u 0) (holding [(2, 0xFE), (7, 0x01)] [] []))).map State.responses = some [0x00] ∧
    (after (exec (.q3u 1) (holding [(2, 0xFE), (7, 0x01)] [] []))).map State.responses = some [0x01] := by decide

/-- T22. -/
theorem test_q3 :
    (after (exec .q3 (holding [(2, 0x00), (7, 0x01)] [] []))).map State.responses = some [0x00] ∧
    (after (exec .q3 (holding [(2, 0xFF), (7, 0x01)] [] []))).map State.responses = some [0x01] := by decide

/-- T23. -/
theorem test_set3u_enable :
    (after (exec (.set3u 1 true) modeState)).map (fun t => (t.chipm, t.sel, t.trace.take 4, t.trace.length)) =
      some ([(2, 0x00), (7, 0x01)], 1, [.sel 1, .tw 1 0x05 0x01, .sel 1, .tw 0 0xC0 0x30], 38) ∧
    (after (exec (.set3u 1 true) modeState)).map (fun t => t.chanm.map Prod.snd) =
      some ((List.range 36).map fun c => if c = 3 then 0x0E else if c < 18 then 0x00 else 0x30) := by decide +kernel

/-- T26: `SET3U 0, 0` keeps the other bits of channel 3's register. -/
theorem test_set3u_keeps_other_bits :
    (after (exec (.set3u 0 false) (holding [(2, 0x01)] ((List.range 18).map fun c => (3 * c + 2, 0x3E)) []))).map
      (fun t => (t.chipm, t.chanm.map Prod.snd)) = some ([(2, 0x00)], List.replicate 18 0x0E) := by decide +kernel

/-- T25, T26. -/
theorem test_set3_enable :
    (after (exec (.set3 true) modeState)).map (fun t => (t.chipm, t.sel, t.trace.take 6, t.trace.length)) =
      some ([(2, 0x01), (7, 0x01)], 1,
        [.sel 0, .tw 1 0x05 0x01, .sel 1, .tw 1 0x05 0x01, .sel 0, .tw 0 0xC0 0x30], 76) ∧
    (after (exec (.set3 true) modeState)).map (fun t => t.chanm.map Prod.snd) =
      some ((List.range 36).map fun c => if c = 3 then 0x3E else 0x30) := by decide +kernel

/-- T37: the check of all 38 entries comes before the first effect. -/
theorem test_set3_unwritten :
    stop (exec (.set3 true) begun) = some .unwrittenMirrorRead ∧
    stop (exec (.set3 true) { modeState with chanm := modeState.chanm.dropLast }) = some .unwrittenMirrorRead := by
  decide +kernel

/-- T38 through the step, and T6 through the step. -/
theorem test_step :
    stop (step { begun with commands := [0xF0000000] }) = some .illegalCommand ∧
    (after (step { begun with commands := [0x6090B031, 0x10000000] })).map (fun t => (t.chanm, t.commands)) =
      some ([(28, 0x31)], [0x10000000]) := by decide

/-- The host's question about a table word, and the word placed where a step takes it: `SETCHAN` before `BEGIN` is V7. -/
theorem test_table_word :
    decodeTableWord 32 0x6090B031 = some (.setchan 0xB0 9 0x31) ∧ decodeTableWord 32 0x6092B031 = none ∧
    stop (step (State.reset.withFetchWord 32 0x6090B031)) = some .notReady := by decide

/-! Witnesses: for each obligation, an input that meets all its hypotheses together; for an obligation of several clauses,
one for each clause, where a clause has a range at the ends of it. -/

theorem witness_EncodeOfDecodedWord : decode 0x8630403F = .command (.setop 0x40 35 1 0x3F) := by decide

theorem witness_DecodeFollowsOpcodeTable :
    (0x6230B03F : Word) &&& opcodeTable[(5 : Fin 12)].mask = opcodeTable[(5 : Fin 12)].pattern := by decide

theorem witness_ReservedWordsAreNamed :
    decode 0xD0000000 = .reservedOpcode ∧ decode 0xC0000002 = .mustBeZero ∧
    ∀ n : Fin 12, (0xC0000002 : Word) &&& opcodeTable[n].mask ≠ opcodeTable[n].pattern := by decide

theorem witness_StepRunsDecodedInstruction :
    { begun with commands := [0x6090B031, 0xA0000000] }.commands = 0x6090B031 :: [0xA0000000] ∧
    decode 0x6090B031 = .command (.setchan 0xB0 9 0x31) := by decide

theorem witness_StepOnReservedWordIsIllegalCommand :
    { begun with commands := [0x6092B031] }.commands = 0x6092B031 :: [] ∧
    ∀ i, decode 0x6092B031 ≠ .command i := by
  refine ⟨rfl, fun i => ?_⟩
  have e : decode 0x6092B031 = .mustBeZero := by decide
  rw [e]
  exact Decoded.noConfusion

theorem witness_StepWithNothingIssuedIdles : begun.commands = [] := rfl

theorem witness_MapperTotalAndInjective_channels :
    bankOf (35 : Fin 36).val = bankOf (35 : Fin 36).val ∧
    chanPhysReg (chanBase 2) (35 : Fin 36).val = chanPhysReg (chanBase 2) (35 : Fin 36).val := ⟨rfl, rfl⟩

theorem witness_MapperTotalAndInjective_entries :
    9 < mirrorSize .chipm ∧ 107 < mirrorSize .chanm ∧ 359 < mirrorSize .opm := by decide

theorem witness_MapperTotalAndInjective_registers :
    Config.default.physInjective = true ∧
    (LogicalReg.op 4 35 1).bank Config.default = (LogicalReg.op 4 35 1).bank Config.default ∧
    (LogicalReg.op 4 35 1).physReg Config.default = (LogicalReg.op 4 35 1).physReg Config.default :=
  ⟨default_physInjective, rfl, rfl⟩

theorem witness_RegisterBytesNeverCarry : Config.default.spacingFits = true := by decide

theorem witness_BeginMakesReady : State.reset.lifecycle = .uninitialized ∧ begun.lifecycle = .ready := by decide

theorem witness_OnlyBeginRunsBeforeReady_stops :
    State.reset.lifecycle = .uninitialized ∧ Instr.reset ≠ .begin := by decide

theorem witness_OnlyBeginRunsBeforeReady_runs :
    (∃ t, exec .begin State.reset = .next t) ∧ ∃ t, exec (.setop 0xE0 35 1 0x07) begun = .next t :=
  ⟨⟨_, rfl⟩, ⟨_, rfl⟩⟩

theorem witness_ResetZeroesEveryRegister : begun.lifecycle = .ready := rfl

theorem witness_ResetZeroesEveryRegister_entries :
    (9 < mirrorSize .chipm ∧ 107 < mirrorSize .chanm ∧ 359 < mirrorSize .opm) ∧
    mirrorSize .chipm ≤ 10 ∧ mirrorSize .chanm ≤ 108 ∧ mirrorSize .opm ≤ 360 := by decide

/-- Register 0x00 of unit 0, bank bit 0 is the image of no logical register under the defaults. -/
theorem witness_ResetZeroesEveryRegister_elsewhere : ∀ r : LogicalReg, r.physKey begun.cfg ≠ 0 := by
  have h : ∀ r ∈ allRegisters, r.physKey Config.default ≠ 0 := by decide +kernel
  exact fun r => h r (mem_allRegisters r)

theorem witness_ResetEmitsPulsesThenSets : exec .reset begun = .next full := exec_reset_of_ready rfl

theorem witness_GetchipAnswersMirrorByte :
    State.reset.lifecycle = .uninitialized ∧
    (begun.lifecycle = .ready ∧ posChip begun.cfg 0x005 = none) ∧
    (begun.lifecycle = .ready ∧ posChip begun.cfg 0x0BD = some 4 ∧ begun.chipm.read (1 * 5 + 4) = none) ∧
    (holding [(9, 0xC0)] [] []).lifecycle = .ready ∧ posChip (holding [(9, 0xC0)] [] []).cfg 0x0BD = some 4 ∧
    (holding [(9, 0xC0)] [] []).chipm.read (1 * 5 + 4) = some 0xC0 := by decide

theorem witness_GetchanAnswersMirrorByte :
    State.reset.lifecycle = .uninitialized ∧
    (begun.lifecycle = .ready ∧ 36 ≤ (36 : BitVec 6).toNat ∧ 36 ≤ (63 : BitVec 6).toNat) ∧
    ((35 : BitVec 6).toNat < 36 ∧ posChan 0xC1 = none) ∧
    ((35 : BitVec 6).toNat < 36 ∧ posChan 0xC0 = some 2 ∧ begun.chanm.read (35 * 3 + 2) = none) ∧
    (holding [] [(107, 0x3F)] []).lifecycle = .ready ∧
    (holding [] [(107, 0x3F)] []).chanm.read (35 * 3 + 2) = some 0x3F := by decide

theorem witness_GetopAnswersMirrorByte :
    State.reset.lifecycle = .uninitialized ∧
    (begun.lifecycle = .ready ∧ 36 ≤ (36 : BitVec 6).toNat ∧ 36 ≤ (63 : BitVec 6).toNat) ∧
    ((35 : BitVec 6).toNat < 36 ∧ posOp 0xA0 = none) ∧
    ((35 : BitVec 6).toNat < 36 ∧ posOp 0xE0 = some 4 ∧ begun.opm.read (35 * 10 + 1 * 5 + 4) = none) ∧
    (holding [] [] [(359, 0x07)]).lifecycle = .ready ∧
    (holding [] [] [(359, 0x07)]).opm.read (35 * 10 + 1 * 5 + 4) = some 0x07 := by decide

theorem witness_SetchipWritesMirrorAndChip :
    State.reset.lifecycle = .uninitialized ∧
    (begun.lifecycle = .ready ∧ posChip begun.cfg 0x004 = none) ∧
    begun.lifecycle = .ready ∧ posChip begun.cfg 0x104 = some 1 := by decide

theorem witness_SetchanWritesMirrorAndChip :
    State.reset.lifecycle = .uninitialized ∧
    (begun.lifecycle = .ready ∧ 36 ≤ (36 : BitVec 6).toNat ∧ 36 ≤ (63 : BitVec 6).toNat) ∧
    ((35 : BitVec 6).toNat < 36 ∧ posChan 0xB1 = none) ∧
    (35 : BitVec 6).toNat < 36 ∧ posChan 0xB0 = some 1 := by decide

theorem witness_SetopWritesMirrorAndChip :
    State.reset.lifecycle = .uninitialized ∧
    (begun.lifecycle = .ready ∧ 36 ≤ (36 : BitVec 6).toNat ∧ 36 ≤ (63 : BitVec 6).toNat) ∧
    ((35 : BitVec 6).toNat < 36 ∧ posOp 0xC0 = none) ∧
    (35 : BitVec 6).toNat < 36 ∧ posOp 0xE0 = some 4 := by decide

theorem witness_Q3uAnswersEnableBit :
    posChip Config.default Config.default.opl3EnReg = some 2 ∧
    (State.reset.cfg = Config.default ∧ State.reset.lifecycle = .uninitialized) ∧
    (begun.cfg = Config.default ∧ begun.lifecycle = .ready ∧ begun.chipm.read (1 * 5 + 2) = none) ∧
    modeState.cfg = Config.default ∧ modeState.lifecycle = .ready ∧ modeState.chipm.read (1 * 5 + 2) = some 0x00 := by
  decide

/-- The two unwritten cases of `Q3`: only unit 0's entry, only unit 1's. -/
theorem witness_Q3AnswersBothEnableBits :
    posChip Config.default Config.default.opl3EnReg = some 2 ∧
    (State.reset.cfg = Config.default ∧ State.reset.lifecycle = .uninitialized) ∧
    ((holding [(7, 0x01)] [] []).chipm.read 2 = none ∧ (holding [(2, 0x01)] [] []).chipm.read (5 + 2) = none) ∧
    modeState.cfg = Config.default ∧ modeState.lifecycle = .ready ∧ modeState.chipm.read 2 = some 0x00 ∧
    modeState.chipm.read (5 + 2) = some 0x00 := by decide

theorem witness_Set3uSetsModeAndPanning_stops :
    (posChip begun.cfg begun.cfg.opl3EnReg = some 2 ∧ posChan begun.cfg.panBase = some 2) ∧
    State.reset.lifecycle = .uninitialized ∧
    (begun.lifecycle = .ready ∧ mirrorRead (.chip 1 2) begun = none) ∧
    (35 : Fin 36).val / 18 = (1 : BitVec 1).toNat ∧
    mirrorRead (.chan 2 35) { modeState with chanm := modeState.chanm.dropLast } = none := by decide +kernel

theorem witness_Set3uSetsModeAndPanning :
    (posChip full.cfg full.cfg.opl3EnReg = some 2 ∧ posChan full.cfg.panBase = some 2) ∧ full.lifecycle = .ready ∧
    (∃ v, mirrorRead (.chip 1 2) full = some v) ∧
    ∀ c : Fin 36, c.val / 18 = (1 : BitVec 1).toNat → ∃ v, mirrorRead (.chan 2 c) full = some v := by
  refine ⟨?_, full_ready, full_complete _, fun c _ => full_complete _⟩
  rw [full_cfg]
  decide

/-- The same on entries of which one holds other bits: channel 3's is 0x0E. -/
theorem witness_Set3uSetsModeAndPanning_other_bits :
    modeState.lifecycle = .ready ∧ mirrorRead (.chip 0 2) modeState = some 0x00 ∧
    mirrorRead (.chan 2 3) modeState = some 0x0E ∧
    ∀ c : Fin 36, (mirrorRead (.chan 2 c) modeState).isSome = true := by decide +kernel

theorem witness_Set3SetsModeAndPanningOfBothUnits_stops :
    (posChip begun.cfg begun.cfg.opl3EnReg = some 2 ∧ posChan begun.cfg.panBase = some 2) ∧
    State.reset.lifecycle = .uninitialized ∧ begun.lifecycle = .ready ∧ mirrorRead (.chip 0 2) begun = none ∧
    mirrorRead (.chan 2 35) begun = none := by decide

theorem witness_Set3SetsModeAndPanningOfBothUnits :
    (posChip full.cfg full.cfg.opl3EnReg = some 2 ∧ posChan full.cfg.panBase = some 2) ∧ full.lifecycle = .ready ∧
    (∀ u, ∃ v, mirrorRead (.chip u 2) full = some v) ∧ ∀ c, ∃ v, mirrorRead (.chan 2 c) full = some v := by
  refine ⟨?_, full_ready, fun u => full_complete _, fun c => full_complete _⟩
  rw [full_cfg]
  decide

theorem witness_Set3EqualsSet3uOnEachUnit :
    full.cfg.wf = true ∧ full.canonical = true ∧ full.lifecycle = .ready ∧ full.mirrorComplete :=
  ⟨full_wf, full_canonical, full_ready, full_complete⟩

theorem witness_ModeAndPanningMoveTogether :
    modeState.cfg.wf = true ∧ (∃ t, exec (.set3u 1 true) modeState = .next t) ∧
    posChan modeState.cfg.panBase = some 2 ∧ (18 : Fin 36).val / 18 = (1 : BitVec 1).toNat := by
  refine ⟨default_wf, ?_, by decide, by decide⟩
  have h : (after (exec (.set3u 1 true) modeState)).isSome = true := by decide +kernel
  cases e : exec (.set3u 1 true) modeState with
  | next t => exact ⟨t, rfl⟩
  | fault f => rw [e] at h; cases h
  | refused r => rw [e] at h; cases h

/-- With a first violation of each kind, and with none. -/
theorem witness_FirstViolationDecides :
    begun.cfg.wf = true ∧
    firstViolation (.setchan 0xB1 36 0x00) State.reset = some .notReady ∧
    firstViolation (.setchan 0xB1 36 0x00) begun = some .channelOutOfRange ∧
    firstViolation (.setchan 0xB1 35 0x00) begun = some .unrecognizedChannelBase ∧
    firstViolation (.getchan 0xB0 35) begun = some .unwrittenMirrorRead ∧
    firstViolation (.setchan 0xB0 35 0x00) begun = none := by
  refine ⟨default_wf, ?_⟩
  decide

theorem witness_OnlyListedViolations :
    begun.cfg.wf = true ∧ exec (.setop 0xE0 36 0 0x00) begun = .fault .channelOutOfRange := ⟨default_wf, rfl⟩

theorem witness_ContractSuffices :
    full.cfg.wf = true ∧ full.lifecycle = .ready ∧ full.mirrorComplete ∧ Instr.getop 0xE0 35 1 ≠ .begin ∧
    (Instr.getop 0xE0 35 1).inContract full.cfg = true := by
  refine ⟨full_wf, full_ready, full_complete, by decide, ?_⟩
  rw [full_cfg]
  decide

/-- A get, a query of the same unit between, the get again. -/
theorem witness_ReadsHaveNoSideEffect_reads :
    responseCount (.getchip 0 0x105) = 1 ∧ (∀ j ∈ [Instr.q3u 0], responseCount j = 1) ∧
    exec (.getchip 0 0x105) (holding [(2, 0x01)] [] []) =
      .next { holding [(2, 0x01)] [] [] with responses := [0x01] } ∧
    execAll [.q3u 0] { holding [(2, 0x01)] [] [] with responses := [0x01] } =
      .next { holding [(2, 0x01)] [] [] with responses := [0x01, 0x01] } := by
  refine ⟨rfl, ?_, rfl, rfl⟩
  decide

theorem witness_ReadsHaveNoSideEffect_sets :
    eventCount (.setchan 0xC0 35 0x3F) = 2 ∧ ∃ t, exec (.setchan 0xC0 35 0x3F) begun = .next t := ⟨rfl, ⟨_, rfl⟩⟩

theorem witness_PinsChipsAndTraceAreNeverRead :
    exec (.getchan 0xB0 9) begun = .fault .unwrittenMirrorRead ∧
    ∃ t, exec (.getchan 0xB0 9) (holding [] [(28, 0x31)] []) = .next t := ⟨rfl, ⟨_, rfl⟩⟩

/-- A set of each class, at the last register of its array, with the frame's premises on another entry and location. -/
theorem witness_SetFrame :
    ((∃ t, exec (.setchip 1 0x0BD 0xC0) begun = .next t) ∧ ∃ t, exec (.setchan 0xC0 35 0x3F) begun = .next t) ∧
    (∃ t, exec (.setop 0xE0 35 1 0x07) begun = .next t) ∧
    posChip begun.cfg 0x0BD = some 4 ∧ chipIndex 1 4 = 9 ∧ posChan 0xC0 = some 2 ∧ channelOffset 2 35 = 107 ∧
    posOp 0xE0 = some 4 ∧ operatorOffset 4 35 1 = 359 ∧
    physKey (unitOfChannel 35) (bankBit (bankOf 35)) (opPhysReg begun.cfg 0xE0 35 1) = 0x3F5 := by
  refine ⟨⟨⟨_, rfl⟩, ⟨_, rfl⟩⟩, ⟨_, rfl⟩, ?_⟩
  decide

theorem witness_EveryCommandAppendsItsCounts :
    exec .reset begun = .next full ∧ ∃ t, exec (.q3u 1) (holding [(7, 0x01)] [] []) = .next t :=
  ⟨exec_reset_of_ready rfl, ⟨_, rfl⟩⟩

theorem witness_SelectorDrivenOnEveryWrite :
    exec .reset begun = .next full ∧ ∃ t, exec (.setchan 0xA0 20 0x01) { begun with sel := 1 } = .next t :=
  ⟨exec_reset_of_ready rfl, ⟨_, rfl⟩⟩

theorem witness_OnlyBeginAndResetDriveResetLine :
    (∃ t, exec .begin State.reset = .next t) ∧ exec .reset begun = .next full ∧
    ∃ t, exec (.setchan 0xA0 20 0x01) begun = .next t := ⟨⟨_, rfl⟩, exec_reset_of_ready rfl, ⟨_, rfl⟩⟩

theorem witness_RoundTripInAnyOrder : begun.cfg.chipRegsDistinct = true ∧ begun.lifecycle = .ready := by decide

theorem witness_StepKeepsCanonicalForm :
    { begun with commands := [0x6230C03F] }.canonical = true ∧
    ∃ t, step { begun with commands := [0x6230C03F] } = .next t := ⟨rfl, ⟨_, rfl⟩⟩

/-- T11 through the step, from any Ready state. -/
theorem set_steps {s : State} (h : s.lifecycle = .ready) :
    ∃ t, step { s with commands := [0x6230C03F] } = .next t := by
  have hd : decode 0x6230C03F = .command (.setchan 0xC0 35 0x3F) := by decide
  rw [step_of_command rfl hd]
  exact ⟨_, whenReady_of_ready h _⟩

/-- A state with T11 issued. -/
def issued (s : State) : State := { s with commands := [0x6230C03F] }

theorem issued_cfg (s : State) : (issued s).cfg = s.cfg := rfl

theorem issued_agrees {s : State} (h : s.mirrorAgrees) : (issued s).mirrorAgrees := h

theorem issued_complete {s : State} (h : s.mirrorComplete) : (issued s).mirrorComplete := h

theorem issued_physInjective : (issued full).cfg.physInjective = true := by
  rw [issued_cfg, full_cfg]
  exact default_physInjective

theorem witness_StepKeepsMirrorAgreement :
    (issued full).cfg.physInjective = true ∧ (issued full).mirrorAgrees ∧ ∃ t, step (issued full) = .next t :=
  ⟨issued_physInjective, issued_agrees full_agrees, set_steps full_ready⟩

theorem witness_MirrorInvariantFromResetOn_reset : exec .reset begun = .next full := exec_reset_of_ready rfl

theorem witness_MirrorInvariantFromResetOn_step :
    (issued full).cfg.physInjective = true ∧ (issued full).mirrorComplete ∧ (issued full).mirrorAgrees ∧
    ∃ t, step (issued full) = .next t :=
  ⟨issued_physInjective, issued_complete full_complete, issued_agrees full_agrees, set_steps full_ready⟩

theorem witness_StepKeepsLatchesOnTrace :
    selAfter 1 { State.reset with sel := 1, rstN := 0, commands := [0x10000000] }.trace = 1 ∧
    rstAfter 0 { State.reset with sel := 1, rstN := 0, commands := [0x10000000] }.trace = 0 ∧
    ∃ t, step { State.reset with sel := 1, rstN := 0, commands := [0x10000000] } = .next t := ⟨rfl, rfl, ⟨_, rfl⟩⟩

theorem witness_StepKeepsTransportAfterSelector :
    transportsFollowSelector false { begun with commands := [0x6230C03F] }.trace = true ∧
    ∃ t, step { begun with commands := [0x6230C03F] } = .next t := ⟨rfl, ⟨_, rfl⟩⟩

theorem witness_StepKeepsGhostFileOnTrace :
    selAfter 0 { begun with commands := [0x6230C03F] }.trace = { begun with commands := [0x6230C03F] }.sel ∧
    physAfter 0 [] { begun with commands := [0x6230C03F] }.trace = { begun with commands := [0x6230C03F] }.phys ∧
    ∃ t, step { begun with commands := [0x6230C03F] } = .next t := ⟨rfl, rfl, ⟨_, rfl⟩⟩

end Sys2Proof.Tests
end

section
/-! PROOF. R57: what a get or query leaves unchanged and answers again, and what a repeated set writes and emits again. -/

namespace Sys2Proof.Machine

/-! Gets and queries. -/

/-- If the operation completes at `s` it appends one byte to the responses, and from every state that differs from `s` in its
responses only it appends the same byte. -/
def AnswersAgain (op : State → Result) (s : State) : Prop :=
  ∀ t, op s = .next t → ∃ v, ∀ bs, op { s with responses := bs } = .next { s with responses := bs ++ [v] }

/-- The lifecycle check does not look at the responses. -/
theorem whenReady_answersAgain {op : State → Result} {s : State} (h : AnswersAgain op s) :
    AnswersAgain (fun s => whenReady s (op s)) s := by
  intro t ht
  obtain ⟨hl, ht⟩ := whenReady_next ht
  obtain ⟨v, hv⟩ := h t ht
  exact ⟨v, fun bs => (whenReady_of_ready (s := { s with responses := bs }) hl _).trans (hv bs)⟩

theorem getLocated_of_read {r : LogicalReg} {v : Byte} {s : State} (h : mirrorRead r s = some v) :
    getLocated (.ok r) s = .next (respond v s) := by
  simp [getLocated, readEntry, h]

theorem getLocated_answersAgain (x : Except Fault LogicalReg) (s : State) : AnswersAgain (getLocated x) s := by
  intro t ht
  obtain ⟨r, v, rfl, hv, -⟩ := getLocated_next ht
  exact ⟨v, fun bs => getLocated_of_read (s := { s with responses := bs }) hv⟩

theorem unitEnabled_withResponses (unit : BitVec 1) (s : State) (bs : List Byte) :
    unitEnabled unit { s with responses := bs } = unitEnabled unit s := rfl

theorem execQ3u_answersAgain (unit : BitVec 1) (s : State) : AnswersAgain (execQ3u unit) s := by
  refine whenReady_answersAgain fun t ht => ?_
  simp only [unitEnabled_withResponses]
  cases hb : unitEnabled unit s with
  | error f => rw [hb] at ht; cases ht
  | ok b => exact ⟨boolByte b, fun bs => rfl⟩

theorem execQ3_answersAgain (s : State) : AnswersAgain execQ3 s := by
  refine whenReady_answersAgain fun t ht => ?_
  simp only [unitEnabled_withResponses]
  cases ha : unitEnabled 0 s with
  | error f => rw [ha] at ht; cases ht
  | ok a =>
    cases hb : unitEnabled 1 s with
    | error f => rw [ha, hb] at ht; cases ht
    | ok b => exact ⟨boolByte (a && b), fun bs => rfl⟩

/-- R57 for one command: every get and every query answers again. -/
theorem exec_answersAgain {i : Instr} (hi : responseCount i = 1) (s : State) : AnswersAgain (exec i) s := by
  cases i with
  | getchip unit reg => exact whenReady_answersAgain (getLocated_answersAgain (locateChip s.cfg unit reg) s)
  | getchan base channel => exact whenReady_answersAgain (getLocated_answersAgain (locateChan base channel) s)
  | getop base channel op => exact whenReady_answersAgain (getLocated_answersAgain (locateOp base channel op) s)
  | q3u unit => exact execQ3u_answersAgain unit s
  | q3 => exact execQ3_answersAgain s
  | begin | reset | setchip | setchan | setop | set3u | set3 => cases hi

/-- A run of gets and queries changes the responses only. -/
theorem execAll_reads_frame {js : List Instr} {t u : State} (hjs : ∀ j ∈ js, responseCount j = 1)
    (h : execAll js t = .next u) : u = { t with responses := u.responses } := by
  induction js generalizing t with
  | nil => exact next_inj h ▸ rfl
  | cons j js ih =>
    rw [List.forall_mem_cons] at hjs
    obtain ⟨hj, hjs⟩ := hjs
    cases hx : exec j t with
    | fault f => simp [execAll, hx] at h
    | refused r => simp [execAll, hx] at h
    | next t' =>
      have hu : execAll js t' = .next u := by simpa [execAll, hx] using h
      obtain ⟨v, hv⟩ := exec_answersAgain hj t t' hx
      obtain rfl : t' = { t with responses := t.responses ++ [v] } := next_inj (hx.symm.trans (hv t.responses))
      exact (ih hjs hu :)

/-! Sets. -/

/-- Of two writes at one index the second alone counts, in canonical form or not. -/
theorem Memory.write_write_same (m : Memory) (a : Nat) (b c : Byte) : (m.write a b).write a c = m.write a c := by
  induction m with
  | nil => simp [Memory.write_cons]
  | cons e m ih =>
    obtain ⟨k, v⟩ := e
    rw [Memory.write_cons k v m a b, Memory.write_cons k v m a c]
    split
    · next hlt => rw [Memory.write_cons, if_pos hlt, ih]
    · split <;> simp [Memory.write_cons]

/-- A repeated register write leaves the three mirror arrays as they are. -/
theorem writeReg_twice_mirrors (r : LogicalReg) (v : Byte) (s : State) :
    (writeReg r v (writeReg r v s)).chipm = (writeReg r v s).chipm ∧
    (writeReg r v (writeReg r v s)).chanm = (writeReg r v s).chanm ∧
    (writeReg r v (writeReg r v s)).opm = (writeReg r v s).opm := by
  cases r <;> simp [LogicalReg.cls, Memory.write_write_same]

/-- A set that completes writes one register, from every state of the same lifecycle. -/
theorem setLocated_writes {x : Except Fault LogicalReg} {v : Byte} {s t : State}
    (h : whenReady s (setLocated x v s) = .next t) :
    ∃ r, ∀ s', s'.lifecycle = s.lifecycle → whenReady s' (setLocated x v s') = .next (writeReg r v s') := by
  obtain ⟨hl, h⟩ := whenReady_next h
  obtain ⟨r, rfl, -⟩ := setLocated_next h
  exact ⟨r, fun s' hl' => whenReady_of_ready (hl'.trans hl) _⟩

/-- A command of two events that completes writes one byte to one register, the same from every state with the same
parameters and lifecycle. -/
theorem exec_set_writes {i : Instr} {s t : State} (hi : eventCount i = 2) (h : exec i s = .next t) :
    ∃ r v, ∀ s', s'.cfg = s.cfg → s'.lifecycle = s.lifecycle → exec i s' = .next (writeReg r v s') := by
  cases i with
  | setchip unit reg value =>
    obtain ⟨r, hr⟩ := setLocated_writes (x := locateChip s.cfg unit reg) h
    refine ⟨r, value, fun s' hc hl => ?_⟩
    rw [← hr s' hl, ← hc]
    rfl
  | setchan base channel value =>
    obtain ⟨r, hr⟩ := setLocated_writes (x := locateChan base channel) h
    exact ⟨r, value, fun s' _ hl => hr s' hl⟩
  | setop base channel op value =>
    obtain ⟨r, hr⟩ := setLocated_writes (x := locateOp base channel op) h
    exact ⟨r, value, fun s' _ hl => hr s' hl⟩
  | begin | reset | getchip | getchan | getop | q3u | q3 | set3u | set3 => cases hi

end Sys2Proof.Machine

namespace Sys2Proof

open Sys2Proof.Machine

/-- Settles O36: reads answer the same byte whatever the responses are, and two equal register writes in a row leave the
mirror arrays as one does. -/
theorem readsHaveNoSideEffect : Obligations.ReadsHaveNoSideEffect := by
  unfold Obligations.ReadsHaveNoSideEffect
  refine ⟨fun i js s t u hi hjs ht hu => ?_, fun i s t hi ht => ?_⟩
  · obtain ⟨v, hv⟩ := exec_answersAgain hi s t ht
    obtain rfl : t = { s with responses := s.responses ++ [v] } := next_inj (ht.symm.trans (hv s.responses))
    refine ⟨v, rfl, ?_⟩
    rw [execAll_reads_frame hjs hu]
    exact hv u.responses
  · obtain ⟨r, v, hw⟩ := exec_set_writes hi ht
    obtain rfl : t = writeReg r v s := next_inj (ht.symm.trans (hw s rfl rfl))
    obtain ⟨hchip, hchan, hop⟩ := writeReg_twice_mirrors r v s
    refine ⟨writeReg r v (writeReg r v s), setEvents s.cfg r v, ?_, hchip, hchan, hop, ?_, rfl, ?_, ?_⟩
    · exact hw _ (writeReg_cfg r v s) (writeReg_lifecycle r v s)
    · exact writeReg_responses r v _
    · exact trace_writeReg r v s
    · rw [trace_writeReg r v (writeReg r v s), writeReg_cfg]

end Sys2Proof
end

section
/-! PROOF. R119: the unit and the within-chip bank bit of a bank. -/

namespace Sys2Proof.Machine

/-- The unit of a bank is the high one of its two bits. -/
theorem physicalUnit_toNat (bank : BitVec 2) : (physicalUnit bank).toNat = bank.toNat / 2 := by
  have := bank.isLt
  simp only [physicalUnit, BitVec.extractLsb'_toNat, Nat.shiftRight_eq_div_pow]
  omega

/-- The within-chip bank bit of a bank is the low one of its two bits. -/
theorem bankBit_toNat (bank : BitVec 2) : (bankBit bank).toNat = bank.toNat % 2 := by
  simp [bankBit]

/-- The banks of unit 0 are 0 and 1. -/
theorem physicalUnit_eq_zero_iff (bank : BitVec 2) : physicalUnit bank = 0 ↔ bank = 0 ∨ bank = 1 := by
  have := physicalUnit_toNat bank
  bv_omega

/-- The banks with within-chip bit 0 are 0 and 2. -/
theorem bankBit_eq_zero_iff (bank : BitVec 2) : bankBit bank = 0 ↔ bank = 0 ∨ bank = 2 := by
  have := bankBit_toNat bank
  bv_omega

/-- A bit is 0 or 1, told apart by any condition for it to be 0. -/
theorem bit_eq_ite_of_eq_zero_iff {b : BitVec 1} {p : Prop} [Decidable p] (h : b = 0 ↔ p) :
    b = if p then 0 else 1 := by
  split
  · next hp => exact h.2 hp
  · next hp => exact (BitVec.eq_zero_or_eq_one b).resolve_left (mt h.1 hp)

end Sys2Proof.Machine

namespace Sys2Proof

open Sys2Proof.Machine

/-- Settles O10: the unit is 0 exactly for banks 0 and 1, the bank bit exactly for banks 0 and 2, and a bit that is not 0
is 1. -/
theorem bankSplitsIntoUnitAndBit : Obligations.BankSplitsIntoUnitAndBit := by
  unfold Obligations.BankSplitsIntoUnitAndBit
  intro bank
  exact ⟨bit_eq_ite_of_eq_zero_iff (physicalUnit_eq_zero_iff bank),
    bit_eq_ite_of_eq_zero_iff (bankBit_eq_zero_iff bank)⟩

end Sys2Proof
end

section
/-! PROOF. The commands while Ready, the registers their addresses name, and R131: the get of a chip-wide register. -/

namespace Sys2Proof.Machine

/-! What an address names. -/

theorem locateChip_of_posChip {cfg : Config} {reg : BitVec 9} {pos : Fin 5} (h : posChip cfg reg = some pos)
    (unit : BitVec 1) : locateChip cfg unit reg = .ok (.chip unit pos) := by
  simp [locateChip, h]

theorem locateChip_of_posChip_none {cfg : Config} {reg : BitVec 9} (h : posChip cfg reg = none) (unit : BitVec 1) :
    locateChip cfg unit reg = .error .unrecognizedChipReg := by
  simp [locateChip, h]

theorem locateChan_of_posChan {base : Byte} {channel : BitVec 6} {pos : Fin 3} (hc : channel.toNat < 36)
    (hp : posChan base = some pos) : locateChan base channel = .ok (.chan pos ⟨channel.toNat, hc⟩) := by
  simp [locateChan, hc, hp]

theorem locateChan_of_posChan_none {base : Byte} {channel : BitVec 6} (hc : channel.toNat < 36)
    (hp : posChan base = none) : locateChan base channel = .error .unrecognizedChannelBase := by
  simp [locateChan, hc, hp]

theorem locateChan_of_range {channel : BitVec 6} (hc : 36 ≤ channel.toNat) (base : Byte) :
    locateChan base channel = .error .channelOutOfRange := by
  simp [locateChan, hc]

theorem locateOp_of_posOp {base : Byte} {channel : BitVec 6} {pos : Fin 5} (hc : channel.toNat < 36)
    (hp : posOp base = some pos) (op : BitVec 1) :
    locateOp base channel op = .ok (.op pos ⟨channel.toNat, hc⟩ op) := by
  simp [locateOp, hc, hp]

/-! Gets and sets while Ready, up to the register they name. -/

theorem exec_getchip_of_ready {s : State} (h : s.lifecycle = .ready) (unit : BitVec 1) (reg : BitVec 9) :
    exec (.getchip unit reg) s = getLocated (locateChip s.cfg unit reg) s := whenReady_of_ready h _

theorem exec_getchan_of_ready {s : State} (h : s.lifecycle = .ready) (base : Byte) (channel : BitVec 6) :
    exec (.getchan base channel) s = getLocated (locateChan base channel) s := whenReady_of_ready h _

theorem exec_getop_of_ready {s : State} (h : s.lifecycle = .ready) (base : Byte) (channel : BitVec 6)
    (op : BitVec 1) : exec (.getop base channel op) s = getLocated (locateOp base channel op) s :=
  whenReady_of_ready h _

theorem exec_setchip_of_ready {s : State} (h : s.lifecycle = .ready) (unit : BitVec 1) (reg : BitVec 9)
    (value : Byte) : exec (.setchip unit reg value) s = setLocated (locateChip s.cfg unit reg) value s :=
  whenReady_of_ready h _

theorem exec_setchan_of_ready {s : State} (h : s.lifecycle = .ready) (base : Byte) (channel : BitVec 6)
    (value : Byte) : exec (.setchan base channel value) s = setLocated (locateChan base channel) value s :=
  whenReady_of_ready h _

theorem exec_setop_of_ready {s : State} (h : s.lifecycle = .ready) (base : Byte) (channel : BitVec 6)
    (op : BitVec 1) (value : Byte) :
    exec (.setop base channel op value) s = setLocated (locateOp base channel op) value s := whenReady_of_ready h _

@[simp] theorem getLocated_error (f : Fault) (s : State) : getLocated (.error f) s = .fault f := rfl

@[simp] theorem setLocated_error (f : Fault) (v : Byte) (s : State) : setLocated (.error f) v s = .fault f := rfl

@[simp] theorem setLocated_ok (r : LogicalReg) (v : Byte) (s : State) :
    setLocated (.ok r) v s = .next (writeReg r v s) := rfl

theorem getLocated_of_unread {r : LogicalReg} {s : State} (h : mirrorRead r s = none) :
    getLocated (.ok r) s = .fault .unwrittenMirrorRead := by
  simp [getLocated, readEntry, h]

end Sys2Proof.Machine

namespace Sys2Proof

open Sys2Proof.Machine

/-- Settles O20: while Ready the command is a get of the register it names, whose mirror entry is the one of R131. -/
theorem getchipAnswersMirrorByte : Obligations.GetchipAnswersMirrorByte := by
  unfold Obligations.GetchipAnswersMirrorByte
  refine fun unit reg s => ⟨fun hl => whenReady_of_uninitialized hl _, fun hl hp => ?_, fun pos hl hp => ?_⟩
  · rw [exec_getchip_of_ready hl, locateChip_of_posChip_none hp, getLocated_error]
  · rw [exec_getchip_of_ready hl, locateChip_of_posChip hp]
    exact ⟨fun hr => getLocated_of_unread (r := .chip unit pos) hr,
      fun v hr => getLocated_of_read (r := .chip unit pos) hr⟩

end Sys2Proof
end

section
/-! PROOF. R134: the set of a channel register, its mirror entry, its physical place and its two events. -/

namespace Sys2Proof.Machine

/-- R119, the other way round: the unit and the bank bit of a bank put it back together. -/
theorem physKey_of_bank (bank : BitVec 2) (reg : Byte) :
    physKey (physicalUnit bank) (bankBit bank) reg = bank.toNat * 256 + reg.toNat := by
  rw [physKey, physicalUnit_toNat, bankBit_toNat]
  omega

/-- Channels 0 to 35 lie in four banks of nine. -/
theorem bankOf_toNat {channel : Nat} (h : channel < 36) : (bankOf channel).toNat = channel / 9 := by
  simp only [bankOf, BitVec.toNat_ofNat]
  omega

/-- R123: channels 0 to 17 belong to unit 0, channels 18 to 35 to unit 1. -/
theorem unitOfChannel_eq {channel : Nat} (h : channel < 36) :
    physicalUnit (bankOf channel) = BitVec.ofNat 1 (channel / 18) := by
  apply BitVec.eq_of_toNat_eq
  rw [physicalUnit_toNat, bankOf_toNat h, BitVec.toNat_ofNat]
  omega

theorem bankBit_bankOf {channel : Nat} (h : channel < 36) :
    bankBit (bankOf channel) = BitVec.ofNat 1 (channel / 9 % 2) := by
  apply BitVec.eq_of_toNat_eq
  rw [bankBit_toNat, bankOf_toNat h, BitVec.toNat_ofNat]
  omega

/-- No channel base is above 0xC0 (R7). -/
theorem chanBase_le (pos : Fin 3) : (chanBase pos).toNat ≤ 0xC0 := by
  revert pos; decide

/-- R120: the register byte of a channel register does not carry. -/
theorem chanPhysReg_toNat (pos : Fin 3) (channel : Nat) :
    (chanPhysReg (chanBase pos) channel).toNat = (chanBase pos).toNat + channel % 9 := by
  have := chanBase_le pos
  simp only [chanPhysReg, BitVec.toNat_add, BitVec.toNat_ofNat]
  omega

theorem chanPhysReg_eq (base : Byte) (channel : Nat) :
    chanPhysReg base channel = BitVec.ofNat 8 (base.toNat + channel % 9) := by
  rw [BitVec.ofNat_add, BitVec.ofNat_toNat, BitVec.setWidth_eq]
  rfl

/-- Where a channel register lies in the flattened ghost file. -/
theorem physKey_chan (cfg : Config) (pos : Fin 3) (channel : Fin 36) :
    (LogicalReg.chan pos channel).physKey cfg =
      channel.val / 9 * 256 + (chanBase pos).toNat + channel.val % 9 := by
  have e : (LogicalReg.chan pos channel).physKey cfg =
      (bankOf channel.val).toNat * 256 + (chanPhysReg (chanBase pos) channel.val).toNat := physKey_of_bank _ _
  rw [e, bankOf_toNat channel.isLt, chanPhysReg_toNat, Nat.add_assoc]

/-- The whole state after the set of a channel register (R134). -/
theorem writeReg_chan (pos : Fin 3) (channel : Fin 36) (value : Byte) (s : State) :
    writeReg (.chan pos channel) value s = { s with
      chanm := s.chanm.write (channel.val * 3 + pos.val) value
      sel := BitVec.ofNat 1 (channel.val / 18)
      phys := s.phys.write (channel.val / 9 * 256 + (chanBase pos).toNat + channel.val % 9) value
      traceRev := .tw (BitVec.ofNat 1 (channel.val / 9 % 2))
          (BitVec.ofNat 8 ((chanBase pos).toNat + channel.val % 9)) value
        :: .sel (BitVec.ofNat 1 (channel.val / 18)) :: s.traceRev } := by
  rw [← physKey_chan s.cfg, ← unitOfChannel_eq channel.isLt, ← bankBit_bankOf channel.isLt, ← chanPhysReg_eq]
  rfl

end Sys2Proof.Machine

namespace Sys2Proof

open Sys2Proof.Machine

/-- Settles O24: while Ready the command is a register write of the register it names, `writeReg_chan`. -/
theorem setchanWritesMirrorAndChip : Obligations.SetchanWritesMirrorAndChip := by
  unfold Obligations.SetchanWritesMirrorAndChip
  refine fun base channel value s => ⟨fun hl => whenReady_of_uninitialized hl _, fun hl hc => ?_,
    fun hl hc hp => ?_, fun pos hl hc hp => ?_⟩
  · rw [exec_setchan_of_ready hl, locateChan_of_range hc, setLocated_error]
  · rw [exec_setchan_of_ready hl, locateChan_of_posChan_none hc hp, setLocated_error]
  · rw [exec_setchan_of_ready hl, locateChan_of_posChan hc hp, setLocated_ok, writeReg_chan,
      chanBase_of_posChan hp]

end Sys2Proof
end

section
/-! PROOF. R137: after `RESET` and any sets, any gets answer the last value set. -/

namespace Sys2Proof.Machine

/-! The commands that get and set a logical register name it. -/

theorem channelField_toNat (c : Fin 36) : (BitVec.ofNat 6 c.val).toNat = c.val := by
  rw [BitVec.toNat_ofNat]
  omega

theorem channelField_lt (c : Fin 36) : (BitVec.ofNat 6 c.val).toNat < 36 := by
  rw [channelField_toNat]
  exact c.isLt

theorem locateChan_chanBase (pos : Fin 3) (c : Fin 36) :
    locateChan (chanBase pos) (BitVec.ofNat 6 c.val) = .ok (.chan pos c) := by
  rw [locateChan_of_posChan (channelField_lt c) (posChan_chanBase pos)]
  simp only [channelField_toNat]

theorem locateOp_opBase (pos : Fin 5) (c : Fin 36) (op : BitVec 1) :
    locateOp (opBase pos) (BitVec.ofNat 6 c.val) op = .ok (.op pos c op) := by
  rw [locateOp_of_posOp (channelField_lt c) (posOp_opBase pos)]
  simp only [channelField_toNat]

/-- The command that sets a register is the write of that register; a chip-wide one needs P1. -/
theorem exec_setCommand {s : State} (hd : s.cfg.chipRegsDistinct = true) (hl : s.lifecycle = .ready)
    (r : LogicalReg) (v : Byte) : exec (setCommand s.cfg v r) s = .next (writeReg r v s) := by
  cases r with
  | chip unit pos =>
    rw [setCommand, exec_setchip_of_ready hl, locateChip_of_posChip (posChip_chipRegs hd pos), setLocated_ok]
  | chan pos c => rw [setCommand, exec_setchan_of_ready hl, locateChan_chanBase, setLocated_ok]
  | op pos c o => rw [setCommand, exec_setop_of_ready hl, locateOp_opBase, setLocated_ok]

/-- The command that gets a register answers its mirror entry; a chip-wide one needs P1. -/
theorem exec_getCommand {s : State} (hd : s.cfg.chipRegsDistinct = true) (hl : s.lifecycle = .ready)
    {r : LogicalReg} {v : Byte} (hr : mirrorRead r s = some v) :
    exec (getCommand s.cfg r) s = .next (respond v s) := by
  rw [← getLocated_of_read hr]
  cases r with
  | chip unit pos =>
    rw [getCommand, exec_getchip_of_ready hl, locateChip_of_posChip (posChip_chipRegs hd pos)]
  | chan pos c => rw [getCommand, exec_getchan_of_ready hl, locateChan_chanBase]
  | op pos c o => rw [getCommand, exec_getop_of_ready hl, locateOp_opBase]

/-! Runs of sets and of gets. -/

theorem execAll_cons {i : Instr} {s t : State} (h : exec i s = .next t) (is : List Instr) :
    execAll (i :: is) s = execAll is t := by
  simp [execAll, h]

theorem execAll_append {is : List Instr} {s t : State} (h : execAll is s = .next t) (js : List Instr) :
    execAll (is ++ js) s = execAll js t := by
  induction is generalizing s with
  | nil => rw [next_inj h, List.nil_append]
  | cons i is ih =>
    cases hi : exec i s with
    | next u =>
      rw [execAll_cons hi] at h
      rw [List.cons_append, execAll_cons hi, ih h]
    | fault f => simp [execAll, hi] at h
    | refused r => simp [execAll, hi] at h

/-- A run of sets is a list of register writes. -/
theorem execAll_sets {s : State} (hd : s.cfg.chipRegsDistinct = true) (hl : s.lifecycle = .ready)
    (ws : List (LogicalReg × Byte)) :
    execAll (ws.map fun w => setCommand s.cfg w.2 w.1) s = .next (writeAll ws s) := by
  induction ws generalizing s with
  | nil => rfl
  | cons w ws ih =>
    have h := ih (s := writeReg w.1 w.2 s) (by rwa [writeReg_cfg]) (by rwa [writeReg_lifecycle])
    rw [writeReg_cfg] at h
    rw [List.map_cons, execAll_cons (exec_setCommand hd hl w.1 w.2), h]
    rfl

/-- A run of gets answers each register's mirror entry, in order. -/
theorem execAll_gets {s : State} (hd : s.cfg.chipRegsDistinct = true) (hl : s.lifecycle = .ready)
    {entry : LogicalReg → Byte} (hm : ∀ r, mirrorRead r s = some (entry r)) (rs : List LogicalReg) :
    execAll (rs.map (getCommand s.cfg)) s = .next { s with responses := s.responses ++ rs.map entry } := by
  induction rs generalizing s with
  | nil => simp [execAll]
  | cons r rs ih =>
    rw [List.map_cons, execAll_cons (exec_getCommand hd hl (hm r))]
    exact (ih (s := respond (entry r) s) hd hl hm).trans (by simp [respond])

/-! What a list of register writes leaves in the mirror. -/

/-- The byte the last write to a register in a list put there, or 0x00 if the list does not write it. -/
def lastWrite (ws : List (LogicalReg × Byte)) (r : LogicalReg) : Byte :=
  match ws.reverse.find? (fun w => w.1 = r) with
  | some w => w.2
  | none => 0x00

/-- A list of writes, repeats allowed, leaves the last value written to a register, or the entry it had. -/
theorem mirrorRead_writeAll (r : LogicalReg) (ws : List (LogicalReg × Byte)) (s : State) :
    mirrorRead r (writeAll ws s) = ((ws.reverse.find? fun w => w.1 = r).map Prod.snd).or (mirrorRead r s) := by
  induction ws generalizing s with
  | nil => rfl
  | cons w ws ih =>
    rw [writeAll, ih, mirrorRead_writeReg, List.reverse_cons, List.find?_append]
    cases hf : ws.reverse.find? fun w => w.1 = r with
    | some u => rfl
    | none =>
      by_cases h : w.1 = r
      · simp [h]
      · simp [h, Ne.symm h]

/-- Over a zeroed mirror, that is `lastWrite`. -/
theorem mirrorRead_writeAll_of_zero {r : LogicalReg} {s : State} (h : mirrorRead r s = some 0x00)
    (ws : List (LogicalReg × Byte)) : mirrorRead r (writeAll ws s) = some (lastWrite ws r) := by
  rw [mirrorRead_writeAll, h, lastWrite]
  cases ws.reverse.find? fun w => w.1 = r <;> rfl

/-- Sets, then gets, from a Ready state with every mirror entry zero. -/
theorem execAll_sets_gets {s : State} (hd : s.cfg.chipRegsDistinct = true) (hl : s.lifecycle = .ready)
    (hz : ∀ r, mirrorRead r s = some 0x00) (sets : List (LogicalReg × Byte)) (gets : List LogicalReg) :
    ∃ t, execAll ((sets.map fun w => setCommand s.cfg w.2 w.1) ++ gets.map (getCommand s.cfg)) s = .next t ∧
      t.responses = s.responses ++ gets.map (lastWrite sets) := by
  have hgets := execAll_gets (s := writeAll sets s) (by rwa [writeAll_cfg]) (by rwa [writeAll_lifecycle])
    (fun r => mirrorRead_writeAll_of_zero (hz r) sets) gets
  rw [writeAll_cfg, writeAll_responses] at hgets
  exact ⟨_, (execAll_append (execAll_sets hd hl sets) _).trans hgets, rfl⟩

end Sys2Proof.Machine

namespace Sys2Proof

open Sys2Proof.Machine

/-- Settles O42: `RESET` zeroes every entry, the sets are a list of register writes, and the gets answer what those
writes left in the mirror. -/
theorem roundTripInAnyOrder : Obligations.RoundTripInAnyOrder := by
  unfold Obligations.RoundTripInAnyOrder
  intro s sets gets hd hl
  have h := execAll_sets_gets (s := zeroed allRegisters s) (by rwa [zeroed_cfg]) (by rwa [zeroed_lifecycle])
    (fun r => zeroed_mirror allRegisters_nodup (mem_allRegisters r) s) sets gets
  rw [zeroed_cfg, zeroed_responses] at h
  rw [List.cons_append, execAll_cons (exec_reset_of_ready hl)]
  exact h

end Sys2Proof
end

section
/-! PROOF. R150: a physical write drives the selector, then makes one transport call. -/

namespace Sys2Proof.Machine

/-- R119: the unit of a bank, as the level driven on the selector line. -/
theorem physicalUnit_eq_ofNat (bank : BitVec 2) : physicalUnit bank = BitVec.ofNat 1 (bank.toNat / 2) := by
  apply BitVec.eq_of_toNat_eq
  have := bank.isLt
  rw [physicalUnit_toNat, BitVec.toNat_ofNat]
  omega

/-- R119: the within-chip bank bit of a bank, as the transport takes it. -/
theorem bankBit_eq_ofNat (bank : BitVec 2) : bankBit bank = BitVec.ofNat 1 bank.toNat := by
  apply BitVec.eq_of_toNat_eq
  rw [bankBit_toNat, BitVec.toNat_ofNat, Nat.pow_one]

end Sys2Proof.Machine

namespace Sys2Proof

open Sys2Proof.Machine

/-- Settles O14: the level, the place and the two events are the bank's unit, bit and flattened key, and the primitives
touch no other field. -/
theorem physWriteDrivesSelectorThenTransport : Obligations.PhysWriteDrivesSelectorThenTransport := by
  unfold Obligations.PhysWriteDrivesSelectorThenTransport
  intro bank reg value s
  rw [← physKey_of_bank, ← physicalUnit_eq_ofNat, ← bankBit_eq_ofNat]
  rfl

end Sys2Proof
end

section
/-! PROOF. R163: what `RESET` leaves in the mirror, in the chips and on the pins. -/

namespace Sys2Proof.Machine

/-- R31: every entry of the three arrays is the entry of a logical register. With `reg_of_entry` and `index_lt` the
registers of a class are the indices of its array, one to one. -/
theorem exists_reg_of_lt {cls : MirrorClass} {i : Nat} (h : i < mirrorSize cls) :
    ∃ r : LogicalReg, r.cls = cls ∧ r.index = i := by
  cases cls with
  | chipm =>
    have hi : i < 10 := h
    refine ⟨.chip (BitVec.ofNat 1 (i / 5)) ⟨i % 5, by omega⟩, rfl, ?_⟩
    simp only [LogicalReg.index, chipIndex, BitVec.toNat_ofNat]
    omega
  | chanm =>
    have hi : i < 108 := h
    refine ⟨.chan ⟨i % 3, by omega⟩ ⟨i / 3, by omega⟩, rfl, ?_⟩
    simp only [LogicalReg.index, channelOffset]
    omega
  | opm =>
    have hi : i < 360 := h
    refine ⟨.op ⟨i % 5, by omega⟩ ⟨i / 10, by omega⟩ (BitVec.ofNat 1 (i / 5 % 2)), rfl, ?_⟩
    simp only [LogicalReg.index, operatorOffset, BitVec.toNat_ofNat]
    omega

/-- `RESET` leaves the entry of every logical register 0x00. -/
theorem zeroed_all_mirror (r : LogicalReg) (s : State) : mirrorRead r (zeroed allRegisters s) = some 0x00 :=
  zeroed_mirror allRegisters_nodup (mem_allRegisters r) s

/-- `RESET` leaves every index inside the arrays written with 0x00. -/
theorem zeroed_all_readPort {cls : MirrorClass} {i : Nat} (h : i < mirrorSize cls) (s : State) :
    readPort cls i (zeroed allRegisters s) = some 0x00 := by
  obtain ⟨r, rfl, rfl⟩ := exists_reg_of_lt h
  exact zeroed_all_mirror r s

/-- No list of zeroed registers reaches an index outside the arrays. -/
theorem zeroed_readPort_outside {cls : MirrorClass} {i : Nat} (h : mirrorSize cls ≤ i) (rs : List LogicalReg)
    (s : State) : readPort cls i (zeroed rs s) = readPort cls i s := by
  refine zeroed_readPort_other (fun r _ he => ?_) s
  obtain ⟨rfl, rfl⟩ := he
  have := index_lt r
  omega

end Sys2Proof.Machine

namespace Sys2Proof

open Sys2Proof.Machine

/-- Settles O18: every logical register is among the zeroed ones, every index inside the arrays is the entry of one, and
the pulses before the writes forgot everything else the chips held. -/
theorem resetZeroesEveryRegister : Obligations.ResetZeroesEveryRegister := by
  unfold Obligations.ResetZeroesEveryRegister
  intro s hl
  refine ⟨zeroed allRegisters s, exec_reset_of_ready hl, (zeroed_lifecycle _ s).trans hl, zeroed_sel _ s,
    zeroed_rstN _ s, ?entries, ?registers, ?elsewhere, ?outside, zeroed_cfg _ s, zeroed_commands _ s,
    zeroed_responses _ s⟩
  case entries => exact fun cls i hi => zeroed_all_readPort hi s
  case registers => exact fun r => ⟨zeroed_all_mirror r s, zeroed_phys (mem_allRegisters r) s⟩
  case elsewhere => exact fun k hk => zeroed_phys_other fun r _ => hk r
  case outside => exact fun cls i hi => zeroed_readPort_outside hi _ s

end Sys2Proof
end

section
/-! PROOF. Encoding: each command has one word and each word at most one command, and the decoder follows the opcode
table (R81 to R87). -/

namespace Sys2Proof

/-! The fields of a command's word. -/

/-- A nine-bit field with bit 8 zero is the field of its low byte (R84). -/
theorem baseField_extractLsb' {reg : BitVec 9} (h : reg.extractLsb' 8 1 = 0) :
    baseField (reg.extractLsb' 0 8) = reg := by
  have hlt := reg.isLt
  have h8 : (reg.extractLsb' 8 1).toNat = 0 := by rw [h]; rfl
  simp only [BitVec.extractLsb'_toNat, Nat.shiftRight_eq_div_pow] at h8
  apply BitVec.eq_of_toNat_eq
  simp only [baseField, BitVec.toNat_setWidth, BitVec.extractLsb'_toNat, Nat.shiftRight_zero]
  omega

/-- A value field with bits 7 to 1 zero is the field of its bit 0 (R84). -/
theorem enableField_getElem {val : BitVec 8} (h : val.extractLsb' 1 7 = 0) : enableField val[0] = val := by
  revert val
  decide

/-- A format with its must-be-zero positions decodes to a command exactly when they are zero. -/
theorem ifZero_eq_command {b : Bool} {i j : Instr} : ifZero b i = .command j ↔ b = true ∧ i = j := by
  cases b <;> simp [ifZero]

/-- No known opcode decodes to a reserved opcode. -/
@[simp] theorem ifZero_ne_reservedOpcode (b : Bool) (i : Instr) : ifZero b i ≠ .reservedOpcode := by
  cases b <;> simp [ifZero]

/-- Decoding the fields of a command's word gives the command. -/
@[simp] theorem decodeFields_encodeFields (i : Instr) : decodeFields (encodeFields i) = .command i := by
  cases i with
  | begin | reset | q3 => rfl
  | getchip | setchip | q3u => simp [decodeFields, encodeFields, ifZero]
  | getchan | setchan | getop | setop => simp [decodeFields, encodeFields, ifZero, Fields.base, Fields.regTop]
  | set3u | set3 => simp [decodeFields, encodeFields, ifZero, Fields.enable, Fields.valTop]

/-- Fields that decode to a command are the fields of its word. -/
theorem encodeFields_of_decodeFields {f : Fields} {i : Instr} (h : decodeFields f = .command i) :
    encodeFields i = f := by
  obtain ⟨opc, unit, oper, chan, mbz, reg, val⟩ := f
  unfold decodeFields at h
  split at h
  case h_13 => cases h
  all_goals
    rename_i hopc
    obtain ⟨hz, rfl⟩ := ifZero_eq_command.1 h
    simp only [Bool.and_eq_true, beq_iff_eq] at hz hopc
    simp_all [encodeFields, Fields.base, Fields.regTop, Fields.enable, Fields.valTop, baseField_extractLsb',
      enableField_getElem]

theorem decode_eq_command_iff {w : Word} {i : Instr} : decode w = .command i ↔ encode i = w := by
  constructor
  · intro h
    rw [encode, encodeFields_of_decodeFields h, joinWord_splitWord]
  · rintro rfl
    rw [decode, encode, splitWord_joinWord, decodeFields_encodeFields]

/-- Settles O1: splitting the joined word gives the command's own fields, and those decode to the command. -/
theorem decodeOfEncodedInstruction : Obligations.DecodeOfEncodedInstruction := by
  unfold Obligations.DecodeOfEncodedInstruction
  exact fun i => decode_eq_command_iff.2 rfl

/-- Settles O2: fields that decode to a command are the command's own, and a word is its fields joined. -/
theorem encodeOfDecodedWord : Obligations.EncodeOfDecodedWord := by
  unfold Obligations.EncodeOfDecodedWord
  exact fun w i => decode_eq_command_iff.1

/-! The rows of the opcode table. -/

theorem and_of_eq_allOnes {n : Nat} (x : BitVec n) {mask : BitVec n} (h : mask = BitVec.allOnes n) :
    x &&& mask = x := by
  rw [h, BitVec.and_allOnes]

theorem and_regTop_eq_zero {reg : BitVec 9} : reg &&& 256#9 = 0#9 ↔ reg.extractLsb' 8 1 = 0#1 := by
  revert reg
  decide

theorem and_valTop_eq_zero {val : BitVec 8} : val &&& 254#8 = 0#8 ↔ val.extractLsb' 1 7 = 0#7 := by
  revert val
  decide

/-- The word of a command matches the row the command belongs to. -/
theorem encode_matches_row (i : Instr) : encode i &&& i.row.mask = i.row.pattern := by
  cases i with
  | begin => exact Laws.TableRow.begin
  | reset => exact Laws.TableRow.reset
  | getchip unit reg => exact Laws.TableRow.getchip unit reg
  | setchip unit reg value => exact Laws.TableRow.setchip unit reg value
  | getchan base channel => exact Laws.TableRow.getchan base channel
  | setchan base channel value => exact Laws.TableRow.setchan base channel value
  | getop base channel op => exact Laws.TableRow.getop base channel op
  | setop base channel op value => exact Laws.TableRow.setop base channel op value
  | q3u unit => exact Laws.TableRow.q3u unit
  | q3 => exact Laws.TableRow.q3
  | set3u unit enable => exact Laws.TableRow.set3u unit enable
  | set3 enable => exact Laws.TableRow.set3 enable

/-- A word that matches a row has the row's opcode and its must-be-zero positions zero, so it decodes to a command of
the row. -/
theorem decode_of_matches_row {w : Word} {n : Fin 12} (h : w &&& opcodeTable[n].mask = opcodeTable[n].pattern) :
    ∃ i, decode w = .command i ∧ i.rowNumber = n := by
  rw [masked_iff, splitWord_and] at h
  unfold decode
  generalize splitWord w = f at h ⊢
  fin_cases n
  all_goals
    simp [opcodeTable, splitWord, and_of_eq_allOnes, and_regTop_eq_zero, and_valTop_eq_zero] at h
    simp [decodeFields, ifZero, Fields.regTop, Fields.valTop, h, Instr.rowNumber]

theorem matches_row_iff {w : Word} {n : Fin 12} :
    w &&& opcodeTable[n].mask = opcodeTable[n].pattern ↔ ∃ i, decode w = .command i ∧ i.rowNumber = n := by
  refine ⟨decode_of_matches_row, ?_⟩
  rintro ⟨i, hd, rfl⟩
  rw [← decode_eq_command_iff.1 hd]
  exact encode_matches_row i

/-- Settles O3: a word that matches two rows decodes to a command of each, and it decodes to one command. -/
theorem decodeFollowsOpcodeTable : Obligations.DecodeFollowsOpcodeTable := by
  unfold Obligations.DecodeFollowsOpcodeTable
  refine fun w n => ⟨matches_row_iff.symm, fun m hn hm => ?_⟩
  obtain ⟨i, hi, rfl⟩ := matches_row_iff.1 hn
  obtain ⟨j, hj, rfl⟩ := matches_row_iff.1 hm
  obtain rfl : i = j := Decoded.command.inj (hi.symm.trans hj)
  rfl

/-! Reserved words. -/

theorem opc_toNat (w : Word) : (splitWord w).opc.toNat = w.toNat / 2 ^ 28 := by
  have := w.isLt
  simp only [splitWord, BitVec.extractLsb'_toNat, Nat.shiftRight_eq_div_pow]
  omega

/-- R86: the reserved opcodes are the four of sixteen the opcode map leaves out. -/
theorem decodeFields_eq_reservedOpcode_iff (f : Fields) :
    decodeFields f = .reservedOpcode ↔
      (f.opc.toNat = 0x0 ∨ f.opc.toNat = 0xD ∨ f.opc.toNat = 0xE ∨ f.opc.toNat = 0xF) := by
  unfold decodeFields
  split
  case h_13 =>
    simp only [imp_false, true_iff] at *
    bv_omega
  all_goals
    rename_i hopc
    simp [hopc]

/-- Settles O4: a word decodes to a command exactly when it matches some row, and only an opcode the map leaves out
decodes to a reserved opcode. -/
theorem reservedWordsAreNamed : Obligations.ReservedWordsAreNamed := by
  unfold Obligations.ReservedWordsAreNamed
  refine fun w => ⟨?_, ?_⟩
  · simp only [ne_eq, matches_row_iff, not_exists, not_and]
    cases decode w <;> simp
  · rw [← opc_toNat]
    exact decodeFields_eq_reservedOpcode_iff _

/-- Settles O5 by evaluating the decoder on the fourteen words. -/
theorem workedWordsDecode : Obligations.WorkedWordsDecode := by
  unfold Obligations.WorkedWordsDecode
  decide

end Sys2Proof

namespace Sys2Proof.Machine

/-! The step. -/

/-- A word that decodes to no command is V6, whichever of the two reserved kinds it is. -/
theorem step_of_reserved {s : State} {w : Word} {rest : List Word} (h : s.commands = w :: rest)
    (hd : ∀ i, decode w ≠ .command i) : step s = .fault .illegalCommand := by
  cases hw : decode w with
  | command i => exact absurd hw (hd i)
  | reservedOpcode => simp [step, takeCommand, h, hw]
  | mustBeZero => simp [step, takeCommand, h, hw]

theorem step_of_idle {s : State} (h : s.commands = []) : step s = .next s := by
  simp [step, takeCommand, h]

end Sys2Proof.Machine

namespace Sys2Proof

open Sys2Proof.Machine

/-- Settles O6: taking the word is the only thing a step does besides the execution. -/
theorem stepRunsDecodedInstruction : Obligations.StepRunsDecodedInstruction := by
  unfold Obligations.StepRunsDecodedInstruction
  exact fun s w rest i => step_of_command

/-- Settles O7: both reserved kinds stop with the one violation. -/
theorem stepOnReservedWordIsIllegalCommand : Obligations.StepOnReservedWordIsIllegalCommand := by
  unfold Obligations.StepOnReservedWordIsIllegalCommand
  exact fun s w rest => step_of_reserved

/-- Settles O8: there is no word to take. -/
theorem stepWithNothingIssuedIdles : Obligations.StepWithNothingIssuedIdles := by
  unfold Obligations.StepWithNothingIssuedIdles
  exact fun s => step_of_idle

/-- Settles O9: the word issued is the command's own, which decodes to it, and taking it gives the state back. -/
theorem issuedWordRunsNext : Obligations.IssuedWordRunsNext := by
  unfold Obligations.IssuedWordRunsNext
  intro s i
  have hw : BitVec.ofNat 32 ((encode i).toNat % 2 ^ 32) = encode i := by
    rw [Nat.mod_eq_of_lt (encode i).isLt, BitVec.ofNat_toNat, BitVec.setWidth_eq]
  rw [State.withFetchWord, hw]
  exact step_of_command (s := issueNext (encode i) s) rfl (decode_eq_command_iff.2 rfl)

end Sys2Proof
end

section
/-! PROOF. Invariants of the mirrors and the chips: what every effect of a command keeps, every step keeps. -/

namespace Sys2Proof.Machine

/-- A property of a state that every effect a completed command can have keeps: the taking of the command word, the
effect of `BEGIN`, that of `RESET`, a response, and a register write. -/
structure KeptByEffects (P : State → Prop) : Prop where
  take : ∀ s rest, P s → P { s with commands := rest }
  begun : ∀ s, P s → P { emitTsetup (emitRst 1 (emitSel 0 s)) with lifecycle := .ready }
  zeroed : ∀ s, P s → P (zeroed allRegisters s)
  respond : ∀ v s, P s → P (respond v s)
  write : ∀ r v s, P s → P (writeReg r v s)

section
variable {P : State → Prop}

theorem KeptByEffects.writeAll (h : KeptByEffects P) (ws : List (LogicalReg × Byte)) {s : State} (hs : P s) :
    P (writeAll ws s) := by
  induction ws generalizing s with
  | nil => exact hs
  | cons w ws ih => exact ih (h.write w.1 w.2 s hs)

/-- What every effect keeps, every command that completes keeps. -/
theorem KeptByEffects.exec (h : KeptByEffects P) {i : Instr} {s t : State} (hs : P s) (ht : exec i s = .next t) :
    P t := by
  rcases exec_next ht with ⟨-, -, rfl⟩ | ⟨-, -, rfl⟩ | ⟨-, -, -, v, rfl⟩ | ⟨-, -, -, -, ws, rfl, -⟩
  · exact h.begun s hs
  · exact h.zeroed s hs
  · exact h.respond v s hs
  · exact h.writeAll ws hs

/-- What every effect keeps, every step keeps. -/
theorem KeptByEffects.step (h : KeptByEffects P) {s t : State} (hs : P s) (ht : step s = .next t) : P t := by
  rcases step_next ht with ⟨-, rfl⟩ | ⟨w, rest, i, -, -, he⟩
  · exact hs
  · exact h.exec (h.take s rest hs) he

end

/-! The invariants. -/

theorem kept_cfg (cfg : Config) : KeptByEffects fun s => s.cfg = cfg where
  take _ _ hs := hs
  begun _ hs := hs
  zeroed s hs := (zeroed_cfg _ s).trans hs
  respond _ _ hs := hs
  write r v s hs := (writeReg_cfg r v s).trans hs

theorem kept_canonical : KeptByEffects fun s => s.canonical = true where
  take _ _ hs := hs
  begun _ hs := hs
  zeroed _ hs := canonical_zeroed hs allRegisters
  respond _ _ hs := hs
  write r v _ hs := canonical_writeReg hs r v

/-- `BEGIN` that completes started Uninitialized. -/
theorem exec_begin_next {s t : State} (h : exec .begin s = .next t) :
    t = { emitTsetup (emitRst 1 (emitSel 0 s)) with lifecycle := .ready } := by
  rcases exec_next h with ⟨-, -, ht⟩ | ⟨-, hi, -⟩ | ⟨-, hr, -⟩ | ⟨-, -, hi, -⟩
  · exact ht
  · cases hi
  · cases hr
  · exact absurd rfl hi

/-- `RESET` that completes started Ready. -/
theorem exec_reset_next {s t : State} (h : exec .reset s = .next t) : t = zeroed allRegisters s := by
  rcases exec_next h with ⟨-, hi, -⟩ | ⟨-, -, ht⟩ | ⟨-, hr, -⟩ | ⟨-, -, -, hi, -⟩
  · cases hi
  · exact ht
  · cases hr
  · exact absurd rfl hi

/-- `RESET` leaves every written entry equal to its physical register, whatever the state before. -/
theorem zeroed_mirrorAgrees (s : State) : (zeroed allRegisters s).mirrorAgrees := by
  intro r v h
  rw [zeroed_all_mirror] at h
  rw [← h]
  exact zeroed_phys (mem_allRegisters r) s

theorem zeroed_mirrorComplete (s : State) : (zeroed allRegisters s).mirrorComplete :=
  fun r => ⟨0x00, zeroed_all_mirror r s⟩

/-- Under P6 a register write changes one entry and one physical register, and they are of the same register. -/
theorem writeReg_mirrorAgrees {s : State} (hp : s.cfg.physInjective = true) (hs : s.mirrorAgrees) (r : LogicalReg)
    (v : Byte) : (writeReg r v s).mirrorAgrees := by
  intro q w h
  rw [mirrorRead_writeReg] at h
  rw [physRead_writeReg hp]
  split at h
  · next hq => rwa [if_pos hq]
  · next hq => rw [if_neg hq]; exact hs q w h

/-- `BEGIN` drives the reset line high, which the chips ignore. -/
theorem kept_mirrorAgrees : KeptByEffects fun s => s.cfg.physInjective = true ∧ s.mirrorAgrees where
  take _ _ hs := hs
  begun _ hs := hs
  zeroed s hs := ⟨by rw [zeroed_cfg]; exact hs.1, zeroed_mirrorAgrees s⟩
  respond _ _ hs := hs
  write r v s hs := ⟨by rw [writeReg_cfg]; exact hs.1, writeReg_mirrorAgrees hs.1 hs.2 r v⟩

theorem kept_mirrorComplete : KeptByEffects State.mirrorComplete where
  take _ _ hs := hs
  begun _ hs := hs
  zeroed s _ := zeroed_mirrorComplete s
  respond _ _ hs := hs
  write r v s hs q := by
    rw [mirrorRead_writeReg]
    split
    · exact ⟨v, rfl⟩
    · exact hs q

end Sys2Proof.Machine

namespace Sys2Proof

open Sys2Proof.Machine

/-- Settles O44: canonical form is kept by a register write, which stays inside the arrays, and by every other effect.
-/
theorem stepKeepsCanonicalForm : Obligations.StepKeepsCanonicalForm := by
  unfold Obligations.StepKeepsCanonicalForm
  exact fun s t => kept_canonical.step

/-- Settles O45: under P6 no register write reaches the physical register of another entry, and `RESET` zeroes both
sides. -/
theorem stepKeepsMirrorAgreement : Obligations.StepKeepsMirrorAgreement := by
  unfold Obligations.StepKeepsMirrorAgreement
  exact fun s t hp hs ht => ⟨(kept_mirrorAgrees.step ⟨hp, hs⟩ ht).2, (kept_cfg s.cfg).step rfl ht⟩

/-- Settles O46: `RESET` zeroes every entry and every register, and no effect takes a byte away from the mirror. -/
theorem mirrorInvariantFromResetOn : Obligations.MirrorInvariantFromResetOn := by
  unfold Obligations.MirrorInvariantFromResetOn
  refine ⟨fun s t ht => ?_, fun s t hp hc ha ht => ?_⟩
  · obtain rfl := exec_reset_next ht
    exact ⟨zeroed_mirrorComplete s, zeroed_mirrorAgrees s⟩
  · exact ⟨kept_mirrorComplete.step hc ht, (kept_mirrorAgrees.step ⟨hp, ha⟩ ht).2⟩

end Sys2Proof
end

section
/-! PROOF. The events of a command: what they leave on the pins and in the chips, how many they are, and the selector
event before each transport event (R11, R27, R28, R32, R152, R153). -/

namespace Sys2Proof.Machine

/-! What a trace leaves behind, trace by trace. -/

theorem selAfter_append (a : BitVec 1) (es fs : List Event) :
    selAfter a (es ++ fs) = selAfter (selAfter a es) fs := by
  induction es generalizing a with
  | nil => rfl
  | cons e es ih => cases e <;> exact ih _

theorem rstAfter_append (a : BitVec 1) (es fs : List Event) :
    rstAfter a (es ++ fs) = rstAfter (rstAfter a es) fs := by
  induction es generalizing a with
  | nil => rfl
  | cons e es ih => cases e <;> exact ih _

theorem physAfter_append (a : BitVec 1) (m : Memory) (es fs : List Event) :
    physAfter a m (es ++ fs) = physAfter (selAfter a es) (physAfter a m es) fs := by
  induction es generalizing a m with
  | nil => rfl
  | cons e es ih => cases e <;> exact ih _ _

/-- What may follow any event may follow a selector event. -/
theorem transportsFollowSelector_mono {es : List Event} (h : transportsFollowSelector false es = true) (b : Bool) :
    transportsFollowSelector b es = true := by
  cases es with
  | nil => rfl
  | cons e es =>
    cases e with
    | tw => simp [transportsFollowSelector] at h
    | sel | rst | delay | tsetup => exact h

theorem transportsFollowSelector_append {b : Bool} {es fs : List Event} (he : transportsFollowSelector b es = true)
    (hf : transportsFollowSelector false fs = true) : transportsFollowSelector b (es ++ fs) = true := by
  induction es generalizing b with
  | nil => exact transportsFollowSelector_mono hf b
  | cons e es ih =>
    cases e with
    | tw a r v =>
      simp only [transportsFollowSelector, Bool.and_eq_true] at he
      simp only [List.cons_append, transportsFollowSelector, Bool.and_eq_true]
      exact ⟨he.1, ih he.2⟩
    | sel | rst | delay | tsetup => exact ih he

/-- The events take the pins and the chips from one state to the other and stand at the end of its trace. -/
structure Emits (s : State) (es : List Event) (t : State) : Prop where
  trace : t.trace = s.trace ++ es
  sel : t.sel = selAfter s.sel es
  rstN : t.rstN = rstAfter s.rstN es
  phys : t.phys = physAfter s.sel s.phys es

theorem Emits.of_eq {s t : State} (ht : t.traceRev = s.traceRev) (hs : t.sel = s.sel) (hr : t.rstN = s.rstN)
    (hp : t.phys = s.phys) : Emits s [] t where
  trace := by rw [State.trace, State.trace, ht, List.append_nil]
  sel := hs
  rstN := hr
  phys := hp

theorem Emits.append {s t u : State} {es fs : List Event} (h : Emits s es t) (g : Emits t fs u) :
    Emits s (es ++ fs) u where
  trace := by rw [g.trace, h.trace, List.append_assoc]
  sel := by rw [g.sel, h.sel, selAfter_append]
  rstN := by rw [g.rstN, h.rstN, rstAfter_append]
  phys := by rw [g.phys, h.phys, h.sel, physAfter_append]

theorem emits_pulse (u : BitVec 1) (s : State) : Emits s (pulseEvents s.cfg u) (pulse u s) where
  trace := trace_pulse u s
  sel := rfl
  rstN := rfl
  phys := rfl

theorem emits_park (b : BitVec 1) (s : State) : Emits s [.sel b] (emitSel b s) where
  trace := record_trace _ _
  sel := rfl
  rstN := rfl
  phys := rfl

theorem emits_begun (s : State) :
    Emits s [.sel 0, .rst 1, .tsetup] { emitTsetup (emitRst 1 (emitSel 0 s)) with lifecycle := .ready } where
  trace := by simp [State.trace]
  sel := rfl
  rstN := rfl
  phys := rfl

theorem emits_writeReg (r : LogicalReg) (v : Byte) (s : State) : Emits s (setEvents s.cfg r v) (writeReg r v s) where
  trace := trace_writeReg r v s
  sel := writeReg_sel r v s
  rstN := writeReg_rstN r v s
  phys := writeReg_phys r v s

theorem emits_writeAll (ws : List (LogicalReg × Byte)) (s : State) :
    Emits s (ws.flatMap fun w => setEvents s.cfg w.1 w.2) (writeAll ws s) := by
  induction ws generalizing s with
  | nil => exact .of_eq rfl rfl rfl rfl
  | cons w ws ih =>
    have h := ih (writeReg w.1 w.2 s)
    rw [writeReg_cfg] at h
    exact (emits_writeReg w.1 w.2 s).append h

theorem emits_zeroed (rs : List LogicalReg) (s : State) : Emits s (zeroingEvents s.cfg rs) (zeroed rs s) := by
  have h := emits_writeAll (rs.map fun r => (r, (0x00 : Byte))) (pulse 1 (pulse 0 s))
  rw [List.flatMap_map] at h
  exact (((emits_pulse 0 s).append (emits_pulse 1 _)).append h).append (emits_park 0 _)

/-! The shape of a command's events. -/

/-- How many events a list holds, a selector event before each transport event, how many selector events beside these,
and no event of the reset line unless the command may drive it. -/
structure EventsOf (count own : Nat) (mayReset : Prop) (es : List Event) : Prop where
  length : es.length = count
  paired : transportsFollowSelector false es = true
  selectors : es.countP isSelEvent = es.countP isTransportEvent + own
  resets : ¬mayReset → ∀ b, es.count (.rst b) = 0

theorem EventsOf.nil (p : Prop) : EventsOf 0 0 p [] := ⟨rfl, rfl, rfl, fun _ _ => rfl⟩

theorem EventsOf.append {m n a b : Nat} {p : Prop} {es fs : List Event} (h : EventsOf m a p es)
    (g : EventsOf n b p fs) : EventsOf (m + n) (a + b) p (es ++ fs) where
  length := by rw [List.length_append, h.length, g.length]
  paired := transportsFollowSelector_append h.paired g.paired
  selectors := by rw [List.countP_append, List.countP_append, h.selectors, g.selectors]; omega
  resets hp b := by rw [List.count_append, h.resets hp b, g.resets hp b]

theorem setEvents_shape (cfg : Config) (r : LogicalReg) (v : Byte) (p : Prop) : EventsOf 2 0 p (setEvents cfg r v) :=
  ⟨rfl, rfl, rfl, fun _ _ => rfl⟩

theorem writeEvents_shape (cfg : Config) (ws : List (LogicalReg × Byte)) (p : Prop) :
    EventsOf (2 * ws.length) 0 p (ws.flatMap fun w => setEvents cfg w.1 w.2) := by
  induction ws with
  | nil => exact .nil p
  | cons w ws ih =>
    rw [List.length_cons, Nat.mul_succ, Nat.add_comm]
    exact (setEvents_shape cfg w.1 w.2 p).append ih

theorem pulseEvents_shape (cfg : Config) (u : BitVec 1) : EventsOf 4 1 True (pulseEvents cfg u) :=
  ⟨rfl, rfl, rfl, fun h => absurd trivial h⟩

theorem zeroingEvents_shape (cfg : Config) (rs : List LogicalReg) :
    EventsOf (2 * rs.length + 9) 3 True (zeroingEvents cfg rs) := by
  have h := writeEvents_shape cfg (rs.map fun r => (r, (0x00 : Byte))) True
  rw [List.flatMap_map, List.length_map] at h
  have hp : EventsOf 1 1 True [.sel 0] := ⟨rfl, rfl, rfl, fun h => absurd trivial h⟩
  have hz := (((pulseEvents_shape cfg 0).append (pulseEvents_shape cfg 1)).append h).append hp
  rwa [show 4 + 4 + 2 * rs.length + 1 = 2 * rs.length + 9 by omega] at hz

theorem ownSelEvents_eq_zero {i : Instr} (hb : i ≠ .begin) (hr : i ≠ .reset) : ownSelEvents i = 0 := by
  cases i with
  | begin => exact absurd rfl hb
  | reset => exact absurd rfl hr
  | _ => rfl

/-- Everything the claims say of the events of a command that completes. -/
theorem exec_emits {i : Instr} {s t : State} (h : exec i s = .next t) :
    ∃ es, Emits s es t ∧ EventsOf (eventCount i) (ownSelEvents i) (i = .begin ∨ i = .reset) es := by
  rcases exec_next h with ⟨-, rfl, rfl⟩ | ⟨-, rfl, rfl⟩ | ⟨-, hc, he, v, rfl⟩ | ⟨-, -, hb, hr, ws, rfl, he⟩
  · exact ⟨_, emits_begun s, rfl, rfl, rfl, fun hn => absurd (.inl rfl) hn⟩
  · have hz := zeroingEvents_shape s.cfg allRegisters
    rw [allRegisters_length] at hz
    exact ⟨_, emits_zeroed allRegisters s, hz.length, hz.paired, hz.selectors, fun hn => absurd (.inr rfl) hn⟩
  · have hb : i ≠ .begin := by rintro rfl; cases hc
    have hr : i ≠ .reset := by rintro rfl; cases hc
    rw [he, ownSelEvents_eq_zero hb hr]
    exact ⟨[], .of_eq rfl rfl rfl rfl, .nil _⟩
  · rw [he, ownSelEvents_eq_zero hb hr]
    exact ⟨_, emits_writeAll ws s, writeEvents_shape s.cfg ws _⟩

/-- The same for a step: its events, of which none is a transport event without a selector event before it. -/
theorem step_emits {s t : State} (h : step s = .next t) :
    ∃ es, Emits s es t ∧ transportsFollowSelector false es = true := by
  rcases step_next h with ⟨-, rfl⟩ | ⟨w, rest, i, -, -, he⟩
  · exact ⟨[], .of_eq rfl rfl rfl rfl, rfl⟩
  · obtain ⟨es, hs, hw⟩ := exec_emits he
    exact ⟨es, ⟨hs.trace, hs.sel, hs.rstN, hs.phys⟩, hw.paired⟩

/-- Without an event of the reset line the latch stays. -/
theorem rstAfter_of_count_eq_zero {es : List Event} (h : ∀ b, es.count (.rst b) = 0) (a : BitVec 1) :
    rstAfter a es = a := by
  induction es with
  | nil => rfl
  | cons e es ih =>
    cases e with
    | rst b => exact absurd (h b) (by simp)
    | sel | delay | tw | tsetup => exact ih fun b => by simpa using h b

/-- A get or query answers one byte and any other command none. -/
theorem exec_responses {i : Instr} {s t : State} (h : exec i s = .next t) :
    ∃ vs, t.responses = s.responses ++ vs ∧ vs.length = responseCount i := by
  rcases exec_next h with ⟨-, rfl, rfl⟩ | ⟨-, rfl, rfl⟩ | ⟨-, hc, -, v, rfl⟩ | ⟨-, hc, -, -, ws, rfl, -⟩
  · exact ⟨[], (List.append_nil _).symm, rfl⟩
  · exact ⟨[], by rw [zeroed_responses, List.append_nil], rfl⟩
  · exact ⟨[v], rfl, hc.symm⟩
  · exact ⟨[], by rw [writeAll_responses, List.append_nil], hc.symm⟩

theorem exec_commands {i : Instr} {s t : State} (h : exec i s = .next t) : t.commands = s.commands := by
  rcases exec_next h with ⟨-, -, rfl⟩ | ⟨-, -, rfl⟩ | ⟨-, -, -, v, rfl⟩ | ⟨-, -, -, -, ws, rfl, -⟩
  · rfl
  · exact zeroed_commands _ s
  · rfl
  · exact writeAll_commands ws s

end Sys2Proof.Machine

namespace Sys2Proof

open Sys2Proof.Machine

/-- Settles O47: the events of a step take the latches from their levels before it to those after it. -/
theorem stepKeepsLatchesOnTrace : Obligations.StepKeepsLatchesOnTrace := by
  unfold Obligations.StepKeepsLatchesOnTrace
  intro s t a b hs hr h
  obtain ⟨es, he, -⟩ := step_emits h
  exact ⟨by rw [he.trace, selAfter_append, hs, he.sel], by rw [he.trace, rstAfter_append, hr, he.rstN]⟩

/-- Settles O48: the events a step appends are paired in themselves, whatever stands before them. -/
theorem stepKeepsTransportAfterSelector : Obligations.StepKeepsTransportAfterSelector := by
  unfold Obligations.StepKeepsTransportAfterSelector
  intro s t hs h
  obtain ⟨es, he, hp⟩ := step_emits h
  rw [he.trace]
  exact transportsFollowSelector_append hs hp

/-- Settles O49: the events of a step take the ghost file, with the selector's level, from before it to after it. -/
theorem stepKeepsGhostFileOnTrace : Obligations.StepKeepsGhostFileOnTrace := by
  unfold Obligations.StepKeepsGhostFileOnTrace
  intro s t a hs hp h
  obtain ⟨es, he, -⟩ := step_emits h
  exact ⟨by rw [he.trace, selAfter_append, hs, he.sel], by rw [he.trace, physAfter_append, hs, hp, he.phys]⟩

/-- Settles O39: the counts are those of the appended lists of `exec_emits` and `exec_responses`. -/
theorem everyCommandAppendsItsCounts : Obligations.EveryCommandAppendsItsCounts := by
  unfold Obligations.EveryCommandAppendsItsCounts
  intro i s t h
  obtain ⟨es, he, hs⟩ := exec_emits h
  exact ⟨⟨es, he.trace, hs.length⟩, exec_responses h, (kept_cfg s.cfg).exec rfl h, exec_commands h⟩

/-- Settles O40 by the shape of a command's events. -/
theorem selectorDrivenOnEveryWrite : Obligations.SelectorDrivenOnEveryWrite := by
  unfold Obligations.SelectorDrivenOnEveryWrite
  intro i s t h
  obtain ⟨es, he, hs⟩ := exec_emits h
  exact ⟨es, he.trace, hs.paired, hs.selectors⟩

/-- Settles O41: `BEGIN` and `RESET` end with the line high, and any other command emits no event that moves the latch.
-/
theorem onlyBeginAndResetDriveResetLine : Obligations.OnlyBeginAndResetDriveResetLine := by
  unfold Obligations.OnlyBeginAndResetDriveResetLine
  refine fun i s t h => ⟨?_, fun hb hr => ?_⟩
  · rintro (rfl | rfl)
    · rw [exec_begin_next h]
      rfl
    · rw [exec_reset_next h, zeroed_rstN]
  · obtain ⟨es, he, hs⟩ := exec_emits h
    have hn := hs.resets (not_or.2 ⟨hb, hr⟩)
    refine ⟨by rw [he.rstN, rstAfter_of_count_eq_zero hn], fun b => ?_⟩
    rw [he.trace, List.count_append, hn b, Nat.add_zero]

/-- Settles O19: the events of `zeroed` at all 478 registers, two for each and nine beside them. -/
theorem resetEmitsPulsesThenSets : Obligations.ResetEmitsPulsesThenSets := by
  unfold Obligations.ResetEmitsPulsesThenSets
  intro s t h
  obtain rfl := exec_reset_next h
  refine ⟨zeroed_trace allRegisters s, ?_, rfl, List.getLast?_concat⟩
  rw [resetEvents, (zeroingEvents_shape s.cfg allRegisters).length, allRegisters_length]

end Sys2Proof
end

section
/-! PROOF. The address mapper: which channels belong to a unit (R123), the map is total and injective (R121), and its
byte additions do not carry (R120). -/

namespace Sys2Proof.Machine

theorem unitOfChannel_toNat (c : Fin 36) : (unitOfChannel c.val).toNat = c.val / 18 := by
  rw [unitOfChannel, unitOfChannel_eq c.isLt, BitVec.toNat_ofNat]
  omega

/-- The channel bases are 16 apart, further than the nine channels of a bank. -/
theorem chanBase_apart (p p' : Fin 3) :
    p = p' ∨ (chanBase p).toNat + 16 ≤ (chanBase p').toNat ∨ (chanBase p').toNat + 16 ≤ (chanBase p).toNat := by
  revert p p'
  decide

/-- R121: a bank and a register byte name at most one channel register. -/
theorem chan_of_bank_physReg {p p' : Fin 3} {c c' : Fin 36} (hb : bankOf c.val = bankOf c'.val)
    (hr : chanPhysReg (chanBase p) c.val = chanPhysReg (chanBase p') c'.val) : p = p' ∧ c = c' := by
  have hbank := congrArg BitVec.toNat hb
  rw [bankOf_toNat c.isLt, bankOf_toNat c'.isLt] at hbank
  have hreg := congrArg BitVec.toNat hr
  rw [chanPhysReg_toNat, chanPhysReg_toNat] at hreg
  have hp : p = p' := by
    rcases chanBase_apart p p' with h | h
    · exact h
    · omega
  subst hp
  exact ⟨rfl, Fin.ext (by omega)⟩

/-- P5 of R9, for one operator register. -/
theorem spacingFits_apply {cfg : Config} (h : cfg.spacingFits = true) (p : Fin 5) (o : BitVec 1) (channel : Nat) :
    (opBase p).toNat + channel % 9 + spacingOf cfg o channel ≤ 0xFF := by
  have five : ∀ p : Fin 5, p ∈ ([0, 1, 2, 3, 4] : List (Fin 5)) := by decide
  simp only [Config.spacingFits, List.all_eq_true, decide_eq_true_eq] at h
  have hm := h p (five p) o (mem_units o) (channel % 9) (List.mem_range.2 (Nat.mod_lt _ (by decide)))
  simpa only [spacingOf, Nat.mod_mod] using hm

/-- The register byte of an operator register, modulo 256. -/
theorem opPhysReg_toNat (cfg : Config) (base : Byte) (channel : Nat) (o : BitVec 1) :
    (opPhysReg cfg base channel o).toNat = (base.toNat + channel % 9 + spacingOf cfg o channel) % 256 := by
  simp only [opPhysReg, BitVec.toNat_add, BitVec.toNat_ofNat]
  omega

end Sys2Proof.Machine

namespace Sys2Proof

open Sys2Proof.Machine

/-- Settles O11: the unit is the high bit of the channel's bank; the two lists are evaluated. -/
theorem channelsOfUnitAscend : Obligations.ChannelsOfUnitAscend := by
  unfold Obligations.ChannelsOfUnitAscend
  exact ⟨unitOfChannel_toNat, by decide⟩

/-- Settles O12: an entry names its register, and so does a physical location, of a channel register always and under P6
of any. -/
theorem mapperTotalAndInjective : Obligations.MapperTotalAndInjective := by
  unfold Obligations.MapperTotalAndInjective
  refine ⟨fun p p' c c' => chan_of_bank_physReg, index_lt, fun cls i hi => ?_, fun cfg hp r r' hb hr => ?_⟩
  · obtain ⟨r, rfl, rfl⟩ := exists_reg_of_lt hi
    exact ⟨r, ⟨rfl, rfl⟩, fun q hq => reg_of_entry hq.1 hq.2⟩
  · exact reg_of_physKey hp (by rw [LogicalReg.physKey, LogicalReg.physKey, hb, hr])

/-- Settles O13: the bases and P5 leave the sums below 256. -/
theorem registerBytesNeverCarry : Obligations.RegisterBytesNeverCarry := by
  unfold Obligations.RegisterBytesNeverCarry
  refine ⟨fun p c => ⟨chanPhysReg_toNat p c.val, ?_⟩, fun cfg h p c o => ?_⟩
  · have := chanBase_le p
    rw [chanPhysReg_toNat]
    omega
  · have := spacingFits_apply h p o c.val
    rw [opPhysReg_toNat, Nat.mod_eq_of_lt (by omega)]

end Sys2Proof
end

section
/-! PROOF. The lifecycle (R160) and power-on (R210). -/

namespace Sys2Proof.Machine

theorem exec_of_uninitialized {i : Instr} {s : State} (hi : i ≠ .begin) (hl : s.lifecycle = .uninitialized) :
    exec i s = .fault .notReady := by
  obtain ⟨k, hk⟩ := exec_checked i s hi
  rw [hk, whenReady_of_uninitialized hl]

theorem exec_begin_of_uninitialized {s : State} (hl : s.lifecycle = .uninitialized) :
    exec .begin s = .next { emitTsetup (emitRst 1 (emitSel 0 s)) with lifecycle := .ready } := by
  simp [exec, execBegin, hl]

theorem exec_begin_of_ready {s : State} (hl : s.lifecycle = .ready) : exec .begin s = .fault .alreadyReady := by
  simp [exec, execBegin, hl]

/-- A command that completes is `BEGIN` from Uninitialized, or another command from Ready. -/
theorem exec_next_lifecycle {i : Instr} {s t : State} (h : exec i s = .next t) :
    t.lifecycle = .ready ∧ (s.lifecycle = .uninitialized ↔ i = .begin) := by
  rcases exec_next h with ⟨hl, hi, rfl⟩ | ⟨hl, rfl, rfl⟩ | ⟨hl, hc, -, v, rfl⟩ | ⟨hl, -, hb, -, ws, rfl, -⟩
  · exact ⟨rfl, by simp [hl, hi]⟩
  · exact ⟨by rw [zeroed_lifecycle, hl], by simp [hl]⟩
  · exact ⟨hl, by simp only [hl, reduceCtorEq, false_iff]; rintro rfl; cases hc⟩
  · exact ⟨by rw [writeAll_lifecycle, hl], by simp [hl, hb]⟩

end Sys2Proof.Machine

namespace Sys2Proof

open Sys2Proof.Machine

/-- Settles O15: the arrays of the power-on state are empty. -/
theorem powerOnState : Obligations.PowerOnState := by
  unfold Obligations.PowerOnState
  exact ⟨rfl, fun cls i => by cases cls <;> rfl, fun k => rfl, rfl, rfl, rfl⟩

/-- Settles O16: the effect of `BEGIN` is written out field by field, with a ghost file that a high reset line leaves
alone. -/
theorem beginMakesReady : Obligations.BeginMakesReady := by
  unfold Obligations.BeginMakesReady
  exact fun s => ⟨exec_begin_of_uninitialized, exec_begin_of_ready⟩

/-- Settles O17: the lifecycle is checked before anything else, and `BEGIN` alone changes it. -/
theorem onlyBeginRunsBeforeReady : Obligations.OnlyBeginRunsBeforeReady := by
  unfold Obligations.OnlyBeginRunsBeforeReady
  exact fun i s => ⟨fun hl hi => exec_of_uninitialized hi hl, fun t => exec_next_lifecycle⟩

/-- Settles O43: the empty mirror has no entry to disagree, and the defaults pass their checks. -/
theorem powerOnMeetsInvariants : Obligations.PowerOnMeetsInvariants := by
  unfold Obligations.PowerOnMeetsInvariants
  refine ⟨rfl, default_wf, fun r v h => ?_, rfl, rfl, rfl, rfl⟩
  cases r <;> cases h

end Sys2Proof
end

section
/-! PROOF. R133 and R135: the gets of channel and operator registers. -/

namespace Sys2Proof.Machine

theorem locateOp_of_posOp_none {base : Byte} {channel : BitVec 6} (hc : channel.toNat < 36)
    (hp : posOp base = none) (op : BitVec 1) : locateOp base channel op = .error .unrecognizedOperatorBase := by
  simp [locateOp, hc, hp]

theorem locateOp_of_range {channel : BitVec 6} (hc : 36 ≤ channel.toNat) (base : Byte) (op : BitVec 1) :
    locateOp base channel op = .error .channelOutOfRange := by
  simp [locateOp, hc]

end Sys2Proof.Machine

namespace Sys2Proof

open Sys2Proof.Machine

/-- Settles O21: while Ready the command is a get of the channel register it names. -/
theorem getchanAnswersMirrorByte : Obligations.GetchanAnswersMirrorByte := by
  unfold Obligations.GetchanAnswersMirrorByte
  refine fun base channel s => ⟨fun hl => whenReady_of_uninitialized hl _, fun hl hc => ?_, fun hl hc hp => ?_,
    fun pos hl hc hp => ?_⟩
  · rw [exec_getchan_of_ready hl, locateChan_of_range hc, getLocated_error]
  · rw [exec_getchan_of_ready hl, locateChan_of_posChan_none hc hp, getLocated_error]
  · rw [exec_getchan_of_ready hl, locateChan_of_posChan hc hp]
    exact ⟨fun hr => getLocated_of_unread (r := .chan pos ⟨channel.toNat, hc⟩) hr,
      fun v hr => getLocated_of_read (r := .chan pos ⟨channel.toNat, hc⟩) hr⟩

/-- Settles O22: while Ready the command is a get of the operator register it names. -/
theorem getopAnswersMirrorByte : Obligations.GetopAnswersMirrorByte := by
  unfold Obligations.GetopAnswersMirrorByte
  refine fun base channel op s => ⟨fun hl => whenReady_of_uninitialized hl _, fun hl hc => ?_, fun hl hc hp => ?_,
    fun pos hl hc hp => ?_⟩
  · rw [exec_getop_of_ready hl, locateOp_of_range hc, getLocated_error]
  · rw [exec_getop_of_ready hl, locateOp_of_posOp_none hc hp, getLocated_error]
  · rw [exec_getop_of_ready hl, locateOp_of_posOp hc hp]
    exact ⟨fun hr => getLocated_of_unread (r := .op pos ⟨channel.toNat, hc⟩ op) hr,
      fun v hr => getLocated_of_read (r := .op pos ⟨channel.toNat, hc⟩ op) hr⟩

end Sys2Proof
end

section
/-! PROOF. R132 and R136: the sets of chip-wide and operator registers, and what the three sets leave unchanged. -/

namespace Sys2Proof.Machine

theorem bit_eight_eq (reg : BitVec 9) : reg.extractLsb' 8 1 = BitVec.ofNat 1 (reg.toNat / 256) := by
  apply BitVec.eq_of_toNat_eq
  simp only [BitVec.extractLsb'_toNat, BitVec.toNat_ofNat, Nat.shiftRight_eq_div_pow]

theorem chipPhysReg_eq (reg : BitVec 9) : chipPhysReg reg = BitVec.ofNat 8 reg.toNat := by
  apply BitVec.eq_of_toNat_eq
  simp [chipPhysReg]

/-- Where a chip-wide register lies in the flattened ghost file. -/
theorem physKey_chip (cfg : Config) (unit : BitVec 1) (pos : Fin 5) :
    (LogicalReg.chip unit pos).physKey cfg = unit.toNat * 512 + cfg.chipRegs[pos].toNat := by
  have := cfg.chipRegs[pos].isLt
  have e : (LogicalReg.chip unit pos).physKey cfg =
      physKey (physicalUnit (chipBank unit cfg.chipRegs[pos])) (bankBit (chipBank unit cfg.chipRegs[pos]))
        (chipPhysReg cfg.chipRegs[pos]) := rfl
  rw [e, physicalUnit_chipBank, bankBit_chipBank, bit_eight_eq, chipPhysReg_eq, physKey]
  simp only [BitVec.toNat_ofNat]
  omega

/-- The whole state after the set of a chip-wide register (R132). -/
theorem writeReg_chip (unit : BitVec 1) (pos : Fin 5) (value : Byte) (s : State) :
    writeReg (.chip unit pos) value s = { s with
      chipm := s.chipm.write (unit.toNat * 5 + pos.val) value
      sel := unit
      phys := s.phys.write (unit.toNat * 512 + s.cfg.chipRegs[pos].toNat) value
      traceRev := .tw (BitVec.ofNat 1 (s.cfg.chipRegs[pos].toNat / 256))
          (BitVec.ofNat 8 s.cfg.chipRegs[pos].toNat) value
        :: .sel unit :: s.traceRev } := by
  have e : writeReg (.chip unit pos) value s = { s with
      chipm := s.chipm.write (chipIndex unit pos) value
      sel := physicalUnit (chipBank unit s.cfg.chipRegs[pos])
      phys := s.phys.write ((LogicalReg.chip unit pos).physKey s.cfg) value
      traceRev := .tw (bankBit (chipBank unit s.cfg.chipRegs[pos])) (chipPhysReg s.cfg.chipRegs[pos]) value
        :: .sel (physicalUnit (chipBank unit s.cfg.chipRegs[pos])) :: s.traceRev } := rfl
  rw [e, physicalUnit_chipBank, bankBit_chipBank, bit_eight_eq, chipPhysReg_eq, physKey_chip, chipIndex]

theorem opPhysReg_eq (cfg : Config) (base : Byte) (channel : Nat) (op : BitVec 1) :
    opPhysReg cfg base channel op = BitVec.ofNat 8 (base.toNat + channel % 9 + spacingOf cfg op channel) := by
  apply BitVec.eq_of_toNat_eq
  rw [opPhysReg_toNat, BitVec.toNat_ofNat]

/-- Where an operator register lies in the flattened ghost file. -/
theorem physKey_op (cfg : Config) (pos : Fin 5) (channel : Fin 36) (op : BitVec 1) :
    (LogicalReg.op pos channel op).physKey cfg =
      channel.val / 9 * 256 + ((opBase pos).toNat + channel.val % 9 + spacingOf cfg op channel.val) % 256 := by
  have e : (LogicalReg.op pos channel op).physKey cfg =
      (bankOf channel.val).toNat * 256 + (opPhysReg cfg (opBase pos) channel.val op).toNat := physKey_of_bank _ _
  rw [e, bankOf_toNat channel.isLt, opPhysReg_toNat]

/-- The whole state after the set of an operator register (R136). -/
theorem writeReg_op (pos : Fin 5) (channel : Fin 36) (op : BitVec 1) (value : Byte) (s : State) :
    writeReg (.op pos channel op) value s = { s with
      opm := s.opm.write (channel.val * 10 + op.toNat * 5 + pos.val) value
      sel := BitVec.ofNat 1 (channel.val / 18)
      phys := s.phys.write
        (channel.val / 9 * 256 + ((opBase pos).toNat + channel.val % 9 + spacingOf s.cfg op channel.val) % 256) value
      traceRev := .tw (BitVec.ofNat 1 (channel.val / 9 % 2))
          (BitVec.ofNat 8 ((opBase pos).toNat + channel.val % 9 + spacingOf s.cfg op channel.val)) value
        :: .sel (BitVec.ofNat 1 (channel.val / 18)) :: s.traceRev } := by
  rw [← physKey_op s.cfg, ← unitOfChannel_eq channel.isLt, ← bankBit_bankOf channel.isLt, ← opPhysReg_eq]
  rfl

/-- The frame of one register write (R61): every other entry, every other physical register, and every field that no set
writes. -/
theorem writeReg_frame (r : LogicalReg) (v : Byte) (s : State) :
    (∀ cls i, ¬(cls = r.cls ∧ i = r.index) → readPort cls i (writeReg r v s) = readPort cls i s) ∧
    (∀ k, k ≠ r.physKey s.cfg → (writeReg r v s).phys.read k = s.phys.read k) ∧
    (writeReg r v s).lifecycle = s.lifecycle ∧ (writeReg r v s).rstN = s.rstN ∧
    (writeReg r v s).responses = s.responses ∧ (writeReg r v s).cfg = s.cfg ∧
    (writeReg r v s).commands = s.commands :=
  ⟨fun cls i h => by rw [readPort_writeReg, if_neg h], fun k h => by rw [phys_read_writeReg, if_neg h],
    writeReg_lifecycle r v s, writeReg_rstN r v s, writeReg_responses r v s, writeReg_cfg r v s,
    writeReg_commands r v s⟩

/-- A set of a chip-wide register that completes is a write of that register. -/
theorem exec_setchip_next {unit : BitVec 1} {reg : BitVec 9} {value : Byte} {s t : State}
    (h : exec (.setchip unit reg value) s = .next t) :
    ∃ pos, posChip s.cfg reg = some pos ∧ t = writeReg (.chip unit pos) value s := by
  obtain ⟨r, hr, ht⟩ := setLocated_next (whenReady_next (k := setLocated (locateChip s.cfg unit reg) value s) h).2
  cases hp : posChip s.cfg reg with
  | none => rw [locateChip_of_posChip_none hp] at hr; cases hr
  | some pos =>
    rw [locateChip_of_posChip hp] at hr
    cases hr
    exact ⟨pos, rfl, ht⟩

theorem exec_setchan_next {base : Byte} {channel : BitVec 6} {value : Byte} {s t : State}
    (h : exec (.setchan base channel value) s = .next t) :
    ∃ pos, ∃ hc : channel.toNat < 36, posChan base = some pos ∧
      t = writeReg (.chan pos ⟨channel.toNat, hc⟩) value s := by
  obtain ⟨r, hr, ht⟩ := setLocated_next (whenReady_next (k := setLocated (locateChan base channel) value s) h).2
  by_cases hc : channel.toNat < 36
  · cases hp : posChan base with
    | none => rw [locateChan_of_posChan_none hc hp] at hr; cases hr
    | some pos =>
      rw [locateChan_of_posChan hc hp] at hr
      cases hr
      exact ⟨pos, hc, rfl, ht⟩
  · rw [locateChan_of_range (by omega)] at hr
    cases hr

theorem exec_setop_next {base : Byte} {channel : BitVec 6} {op : BitVec 1} {value : Byte} {s t : State}
    (h : exec (.setop base channel op value) s = .next t) :
    ∃ pos, ∃ hc : channel.toNat < 36, posOp base = some pos ∧
      t = writeReg (.op pos ⟨channel.toNat, hc⟩ op) value s := by
  obtain ⟨r, hr, ht⟩ := setLocated_next (whenReady_next (k := setLocated (locateOp base channel op) value s) h).2
  by_cases hc : channel.toNat < 36
  · cases hp : posOp base with
    | none => rw [locateOp_of_posOp_none hc hp] at hr; cases hr
    | some pos =>
      rw [locateOp_of_posOp hc hp] at hr
      cases hr
      exact ⟨pos, hc, rfl, ht⟩
  · rw [locateOp_of_range (by omega)] at hr
    cases hr

end Sys2Proof.Machine

namespace Sys2Proof

open Sys2Proof.Machine

/-- Settles O23: while Ready the command is a register write of the register it names, `writeReg_chip`. -/
theorem setchipWritesMirrorAndChip : Obligations.SetchipWritesMirrorAndChip := by
  unfold Obligations.SetchipWritesMirrorAndChip
  refine fun unit reg value s => ⟨fun hl => whenReady_of_uninitialized hl _, fun hl hp => ?_, fun pos hl hp => ?_⟩
  · rw [exec_setchip_of_ready hl, locateChip_of_posChip_none hp, setLocated_error]
  · rw [exec_setchip_of_ready hl, locateChip_of_posChip hp, setLocated_ok, writeReg_chip, chipRegs_of_posChip hp]

/-- Settles O25: while Ready the command is a register write of the register it names, `writeReg_op`. -/
theorem setopWritesMirrorAndChip : Obligations.SetopWritesMirrorAndChip := by
  unfold Obligations.SetopWritesMirrorAndChip
  refine fun base channel op value s => ⟨fun hl => whenReady_of_uninitialized hl _, fun hl hc => ?_,
    fun hl hc hp => ?_, fun pos hl hc hp => ?_⟩
  · rw [exec_setop_of_ready hl, locateOp_of_range hc, setLocated_error]
  · rw [exec_setop_of_ready hl, locateOp_of_posOp_none hc hp, setLocated_error]
  · rw [exec_setop_of_ready hl, locateOp_of_posOp hc hp, setLocated_ok, writeReg_op, opBase_of_posOp hp]

/-- Settles O38: a set that completes is a write of the register it names, of which `writeReg_frame` gives the frame. -/
theorem setFrame : Obligations.SetFrame := by
  unfold Obligations.SetFrame
  refine ⟨fun unit reg value s t h => ?chip, fun base channel value s t h => ?chan,
    fun base channel op value s t h => ?op⟩
  case chip =>
    obtain ⟨pos, hp, rfl⟩ := exec_setchip_next h
    obtain ⟨hport, hphys, hrest⟩ := writeReg_frame (.chip unit pos) value s
    refine ⟨fun cls i hi => hport cls i (hi pos hp), fun k hk => hphys k ?_, hrest⟩
    rw [← chipRegs_of_posChip hp] at hk
    rwa [LogicalReg.physKey, LogicalReg.bank, physicalUnit_chipBank]
  case chan =>
    obtain ⟨pos, hc, hp, rfl⟩ := exec_setchan_next h
    obtain ⟨hport, hphys, hrest⟩ := writeReg_frame (.chan pos ⟨channel.toNat, hc⟩) value s
    refine ⟨fun cls i hi => hport cls i (hi pos hp), fun k hk => hphys k ?_, hrest⟩
    rwa [← chanBase_of_posChan hp] at hk
  case op =>
    obtain ⟨pos, hc, hp, rfl⟩ := exec_setop_next h
    obtain ⟨hport, hphys, hrest⟩ := writeReg_frame (.op pos ⟨channel.toNat, hc⟩ op) value s
    refine ⟨fun cls i hi => hport cls i (hi pos hp), fun k hk => hphys k ?_, hrest⟩
    rwa [← opBase_of_posOp hp] at hk

end Sys2Proof
end

section
/-! PROOF. R165 and R166: the queries. -/

namespace Sys2Proof.Machine

theorem unitEnabled_of_read {unit : BitVec 1} {pos : Fin 5} {s : State} {v : Byte}
    (hp : posChip s.cfg s.cfg.opl3EnReg = some pos) (hr : mirrorRead (.chip unit pos) s = some v) :
    unitEnabled unit s = .ok (fieldSet v s.cfg.opl3EnMask) := by
  simp [unitEnabled, enableReg, locateChip_of_posChip hp, readEntry, hr]

theorem unitEnabled_of_unread {unit : BitVec 1} {pos : Fin 5} {s : State}
    (hp : posChip s.cfg s.cfg.opl3EnReg = some pos) (hr : mirrorRead (.chip unit pos) s = none) :
    unitEnabled unit s = .error .unwrittenMirrorRead := by
  simp [unitEnabled, enableReg, locateChip_of_posChip hp, readEntry, hr]

theorem exec_q3u_of_enabled {s : State} (hl : s.lifecycle = .ready) {unit : BitVec 1} {b : Bool}
    (h : unitEnabled unit s = .ok b) : exec (.q3u unit) s = .next (respond (boolByte b) s) := by
  simp only [exec, execQ3u, whenReady_of_ready hl, h]

theorem exec_q3u_of_error {s : State} (hl : s.lifecycle = .ready) {unit : BitVec 1} {f : Fault}
    (h : unitEnabled unit s = .error f) : exec (.q3u unit) s = .fault f := by
  simp only [exec, execQ3u, whenReady_of_ready hl, h]

theorem exec_q3_of_enabled {s : State} (hl : s.lifecycle = .ready) {a b : Bool} (h0 : unitEnabled 0 s = .ok a)
    (h1 : unitEnabled 1 s = .ok b) : exec .q3 s = .next (respond (boolByte (a && b)) s) := by
  simp only [exec, execQ3, whenReady_of_ready hl, h0, h1]

theorem exec_q3_of_error_left {s : State} (hl : s.lifecycle = .ready) {f : Fault} (h0 : unitEnabled 0 s = .error f) :
    exec .q3 s = .fault f := by
  simp only [exec, execQ3, whenReady_of_ready hl, h0]

theorem exec_q3_of_error_right {s : State} (hl : s.lifecycle = .ready) {a : Bool} {f : Fault}
    (h0 : unitEnabled 0 s = .ok a) (h1 : unitEnabled 1 s = .error f) : exec .q3 s = .fault f := by
  simp only [exec, execQ3, whenReady_of_ready hl, h0, h1]

theorem mirrorRead_chip_zero (pos : Fin 5) (s : State) : mirrorRead (.chip 0 pos) s = s.chipm.read pos.val := by
  rw [← Nat.zero_add pos.val]
  rfl

theorem mirrorRead_chip_one (pos : Fin 5) (s : State) : mirrorRead (.chip 1 pos) s = s.chipm.read (5 + pos.val) := rfl

/-- With the mode entry of either unit unwritten `Q3` is V9, unit 0 looked at first (R166). -/
theorem exec_q3_of_unread {pos : Fin 5} {s : State} (hl : s.lifecycle = .ready)
    (hp : posChip s.cfg s.cfg.opl3EnReg = some pos)
    (hr : mirrorRead (.chip 0 pos) s = none ∨ mirrorRead (.chip 1 pos) s = none) :
    exec .q3 s = .fault .unwrittenMirrorRead := by
  cases h0 : mirrorRead (.chip 0 pos) s with
  | none => exact exec_q3_of_error_left hl (unitEnabled_of_unread hp h0)
  | some v =>
    have h1 := hr.resolve_left (by rw [h0]; exact Option.some_ne_none v)
    exact exec_q3_of_error_right hl (unitEnabled_of_read hp h0) (unitEnabled_of_unread hp h1)

theorem boolByte_eq_ite (b : Bool) : boolByte b = if b = false then 0x00 else 0x01 := by
  cases b <;> rfl

theorem fieldSet_eq_false_iff {v mask : Byte} : fieldSet v mask = false ↔ v &&& mask = 0 := by
  simp [fieldSet]

end Sys2Proof.Machine

namespace Sys2Proof

open Sys2Proof.Machine

/-- Settles O26: the answer is the byte of whether the mode entry has a masked bit set. -/
theorem q3uAnswersEnableBit : Obligations.Q3uAnswersEnableBit := by
  unfold Obligations.Q3uAnswersEnableBit
  refine fun unit pos s hp => ⟨fun hl => whenReady_of_uninitialized hl _, fun hl hr => ?_, fun v hl hr => ?_⟩
  · exact exec_q3u_of_error hl (unitEnabled_of_unread hp hr)
  · rw [exec_q3u_of_enabled hl (unitEnabled_of_read hp hr), boolByte_eq_ite]
    simp only [fieldSet_eq_false_iff, respond]

/-- Settles O27: the answer is 0x01 unless one of the two fields is clear. -/
theorem q3AnswersBothEnableBits : Obligations.Q3AnswersBothEnableBits := by
  unfold Obligations.Q3AnswersBothEnableBits
  simp only [← mirrorRead_chip_zero, ← mirrorRead_chip_one]
  refine fun pos s hp => ⟨fun hl => whenReady_of_uninitialized hl _, fun hl hr => exec_q3_of_unread hl hp hr,
    fun v w hl hv hw => ?_⟩
  rw [exec_q3_of_enabled hl (unitEnabled_of_read hp hv) (unitEnabled_of_read hp hw), boolByte_eq_ite]
  simp only [Bool.and_eq_false_iff, fieldSet_eq_false_iff, respond]

end Sys2Proof
end

section
/-! PROOF. R164, R167, R168, R169: the mode commands. -/

namespace Sys2Proof.Machine

/-! The registers a mode command reads and writes. -/

section
variable {cfg : Config} {en : Fin 5} {pan : Fin 3}

theorem modeRegisters_eq (he : posChip cfg cfg.opl3EnReg = some en) (us : List (BitVec 1)) :
    modeRegisters cfg us = us.map fun u => .chip u en := by
  simp only [modeRegisters, he]

theorem panRegisters_eq (hp : posChan cfg.panBase = some pan) (cs : List (Fin 36)) :
    panRegisters cfg cs = cs.map fun c => .chan pan c := by
  simp only [panRegisters, hp]

/-- What holds of every register of a mode command holds of the mode register of each unit and the panning register of
each channel. -/
theorem forall_mem_modeEntries (he : posChip cfg cfg.opl3EnReg = some en) (hp : posChan cfg.panBase = some pan)
    {us : List (BitVec 1)} {cs : List (Fin 36)} {P : LogicalReg → Prop} :
    (∀ r ∈ modeRegisters cfg us ++ panRegisters cfg cs, P r) ↔
      (∀ u ∈ us, P (.chip u en)) ∧ ∀ c ∈ cs, P (.chan pan c) := by
  rw [modeRegisters_eq he, panRegisters_eq hp, List.forall_mem_append, List.forall_mem_map, List.forall_mem_map]

theorem modeEntries_nodup (he : posChip cfg cfg.opl3EnReg = some en) (hp : posChan cfg.panBase = some pan)
    {us : List (BitVec 1)} {cs : List (Fin 36)} (hu : us.Nodup) (hc : cs.Nodup) :
    (modeRegisters cfg us ++ panRegisters cfg cs).Nodup := by
  rw [modeRegisters_eq he, panRegisters_eq hp]
  refine List.Nodup.append (hu.map fun u v h => ?_) (hc.map fun c d h => ?_) ?_
  · cases h; rfl
  · cases h; rfl
  · simp [List.disjoint_left]

end

/-- The registers a mode command writes are the ones it reads, in order. -/
theorem modeWrites_regs (s : State) (enable : Bool) (ms ps : List LogicalReg) :
    (modeWrites s enable ms ps).map Prod.fst = ms ++ ps := by
  simp [modeWrites, Function.comp_def]

theorem reg_mem_of_mem_modeWrites {s : State} {enable : Bool} {ms ps : List LogicalReg} {w : LogicalReg × Byte}
    (h : w ∈ modeWrites s enable ms ps) : w.1 ∈ ms ++ ps := by
  rw [← modeWrites_regs s enable]
  exact List.mem_map_of_mem h

theorem mem_channelsOfUnit_iff {u : BitVec 1} {c : Fin 36} : c ∈ channelsOfUnit u ↔ c.val / 18 = u.toNat := by
  rw [mem_channelsOfUnit, ← unitOfChannel_toNat, BitVec.toNat_inj]

/-! The state a mode command leaves. -/

/-- The state after the mode command on the listed units and channels, when the entries it reads are written. -/
def modeSet (us : List (BitVec 1)) (cs : List (Fin 36)) (enable : Bool) (s : State) : State :=
  writeAll (modeWrites s enable (modeRegisters s.cfg us) (panRegisters s.cfg cs)) s

section
variable {s : State} {en : Fin 5} {pan : Fin 3}

theorem exec_set3u_of_written (hl : s.lifecycle = .ready) (he : posChip s.cfg s.cfg.opl3EnReg = some en)
    (hp : posChan s.cfg.panBase = some pan) {unit : BitVec 1} {enable : Bool}
    (hw : ∀ r ∈ entriesRead s.cfg (.set3u unit enable), written s r = true) :
    exec (.set3u unit enable) s = .next (modeSet [unit] (channelsOfUnit unit) enable s) := by
  rw [exec_set3u_of_ready hl he hp, if_pos (List.all_eq_true.2 hw), modeSet]

theorem exec_set3u_of_unwritten (hl : s.lifecycle = .ready) (he : posChip s.cfg s.cfg.opl3EnReg = some en)
    (hp : posChan s.cfg.panBase = some pan) {unit : BitVec 1} {enable : Bool}
    (hw : ¬∀ r ∈ entriesRead s.cfg (.set3u unit enable), written s r = true) :
    exec (.set3u unit enable) s = .fault .unwrittenMirrorRead := by
  rw [exec_set3u_of_ready hl he hp, if_neg fun h => hw (List.all_eq_true.1 h)]

theorem exec_set3_of_written (hl : s.lifecycle = .ready) (he : posChip s.cfg s.cfg.opl3EnReg = some en)
    (hp : posChan s.cfg.panBase = some pan) {enable : Bool}
    (hw : ∀ r ∈ entriesRead s.cfg (.set3 enable), written s r = true) :
    exec (.set3 enable) s = .next (modeSet units allChannels enable s) := by
  rw [exec_set3_of_ready hl he hp, if_pos (List.all_eq_true.2 hw), modeSet]

theorem exec_set3_of_unwritten (hl : s.lifecycle = .ready) (he : posChip s.cfg s.cfg.opl3EnReg = some en)
    (hp : posChan s.cfg.panBase = some pan) {enable : Bool}
    (hw : ¬∀ r ∈ entriesRead s.cfg (.set3 enable), written s r = true) :
    exec (.set3 enable) s = .fault .unwrittenMirrorRead := by
  rw [exec_set3_of_ready hl he hp, if_neg fun h => hw (List.all_eq_true.1 h)]

variable {us : List (BitVec 1)} {cs : List (Fin 36)} {enable : Bool}

theorem modeByte_of_read {mask : Byte} {r : LogicalReg} {v : Byte} (h : mirrorRead r s = some v) :
    modeByte s mask enable r = withField v mask enable := by
  rw [modeByte, h, Option.getD_some]

/-- The mode register of each unit keeps its other bits and takes the enable value (R164). -/
theorem mirrorRead_modeSet_mode (he : posChip s.cfg s.cfg.opl3EnReg = some en) (hp : posChan s.cfg.panBase = some pan)
    (hu : us.Nodup) (hc : cs.Nodup) {u : BitVec 1} (hm : u ∈ us) {v : Byte} (hv : mirrorRead (.chip u en) s = some v) :
    mirrorRead (.chip u en) (modeSet us cs enable s) = some (withField v s.cfg.opl3EnMask enable) := by
  refine writeAll_mirror (by rw [modeWrites_regs]; exact modeEntries_nodup he hp hu hc) ?_ s
  rw [modeWrites, modeRegisters_eq he, ← modeByte_of_read hv]
  exact List.mem_append_left _ (List.mem_map_of_mem (List.mem_map_of_mem hm))

/-- The panning register of each channel, the same. -/
theorem mirrorRead_modeSet_pan (he : posChip s.cfg s.cfg.opl3EnReg = some en) (hp : posChan s.cfg.panBase = some pan)
    (hu : us.Nodup) (hc : cs.Nodup) {c : Fin 36} (hm : c ∈ cs) {v : Byte} (hv : mirrorRead (.chan pan c) s = some v) :
    mirrorRead (.chan pan c) (modeSet us cs enable s) = some (withField v s.cfg.panMask enable) := by
  refine writeAll_mirror (by rw [modeWrites_regs]; exact modeEntries_nodup he hp hu hc) ?_ s
  rw [modeWrites, panRegisters_eq hp, ← modeByte_of_read hv]
  exact List.mem_append_right _ (List.mem_map_of_mem (List.mem_map_of_mem hm))

theorem readPort_modeSet_other {cls : MirrorClass} {i : Nat}
    (h : ∀ r ∈ modeRegisters s.cfg us ++ panRegisters s.cfg cs, ¬(cls = r.cls ∧ i = r.index)) :
    readPort cls i (modeSet us cs enable s) = readPort cls i s :=
  writeAll_readPort_other (fun w hw => h w.1 (reg_mem_of_mem_modeWrites hw)) s

theorem phys_modeSet_other {k : Nat}
    (h : ∀ r ∈ modeRegisters s.cfg us ++ panRegisters s.cfg cs, r.physKey s.cfg ≠ k) :
    (modeSet us cs enable s).phys.read k = s.phys.read k :=
  writeAll_phys_other fun w hw => h w.1 (reg_mem_of_mem_modeWrites hw)

theorem trace_modeSet : (modeSet us cs enable s).trace =
    s.trace ++ modeEvents s enable (modeRegisters s.cfg us) (panRegisters s.cfg cs) := by
  rw [modeSet, writeAll_trace, modeWrites, List.flatMap_append, List.flatMap_map, List.flatMap_map, modeEvents]

/-- Two events for each register. -/
theorem modeEvents_length (ms ps : List LogicalReg) :
    (modeEvents s enable ms ps).length = 2 * (ms.length + ps.length) := by
  simp [modeEvents, setEvents, List.length_flatMap]
  omega

/-- The selector is left at the unit of the last channel (R153). -/
theorem modeSet_sel (hp : posChan s.cfg.panBase = some pan) {c : Fin 36} (h : cs.getLast? = some c) :
    (modeSet us cs enable s).sel = unitOfChannel c.val := by
  obtain ⟨ds, rfl⟩ := List.getLast?_eq_some_iff.1 h
  rw [modeSet, modeWrites, panRegisters_eq hp, List.map_append, List.map_append, ← List.append_assoc]
  exact writeAll_sel_append _ _ _ s

end

theorem channelsOfUnit_getLast? (u : BitVec 1) :
    ∃ c, (channelsOfUnit u).getLast? = some c ∧ unitOfChannel c.val = u := by
  revert u
  decide

/-- Unit and physical place of the registers of one unit's mode command. -/
theorem physKey_div_of_chip (cfg : Config) (unit : BitVec 1) (pos : Fin 5) :
    (LogicalReg.chip unit pos).physKey cfg / 512 = unit.toNat := by
  have := cfg.chipRegs[pos].isLt
  rw [physKey_chip]
  omega

theorem physKey_div_of_chan (cfg : Config) (pos : Fin 3) (c : Fin 36) :
    (LogicalReg.chan pos c).physKey cfg / 512 = c.val / 18 := by
  have := chanBase_le pos
  rw [physKey_chan]
  omega

theorem written_iff {s : State} {r : LogicalReg} : written s r = true ↔ ∃ v, mirrorRead r s = some v :=
  Option.isSome_iff_exists

/-- The entries `SET3U` reads are written when the mode entry of the unit and the panning entries of its channels are.
-/
theorem forall_set3u_written_iff {s : State} {en : Fin 5} {pan : Fin 3}
    (he : posChip s.cfg s.cfg.opl3EnReg = some en) (hp : posChan s.cfg.panBase = some pan) {unit : BitVec 1}
    {enable : Bool} :
    (∀ r ∈ entriesRead s.cfg (.set3u unit enable), written s r = true) ↔
      (∃ v, mirrorRead (.chip unit en) s = some v) ∧
        ∀ c : Fin 36, c.val / 18 = unit.toNat → ∃ v, mirrorRead (.chan pan c) s = some v := by
  rw [entriesRead, forall_mem_modeEntries he hp, List.forall_mem_singleton]
  simp only [written_iff, mem_channelsOfUnit_iff]

/-- The entries `SET3` reads are written when both mode entries and all panning entries are. -/
theorem forall_set3_written_iff {s : State} {en : Fin 5} {pan : Fin 3}
    (he : posChip s.cfg s.cfg.opl3EnReg = some en) (hp : posChan s.cfg.panBase = some pan) {enable : Bool} :
    (∀ r ∈ entriesRead s.cfg (.set3 enable), written s r = true) ↔
      (∀ u, ∃ v, mirrorRead (.chip u en) s = some v) ∧ ∀ c, ∃ v, mirrorRead (.chan pan c) s = some v := by
  rw [entriesRead, forall_mem_modeEntries he hp]
  simp only [written_iff, mem_units, mem_allChannels, forall_const]

end Sys2Proof.Machine

namespace Sys2Proof

open Sys2Proof.Machine

/-- Settles O28: a completed mode command is `modeSet`, whose 19 registers are the unit's own. -/
theorem set3uSetsModeAndPanning : Obligations.Set3uSetsModeAndPanning := by
  unfold Obligations.Set3uSetsModeAndPanning
  refine fun unit enable en pan s he hp => ⟨fun hl => whenReady_of_uninitialized hl _, fun hl hn => ?_,
    fun hl hm hc => ?_⟩
  · refine exec_set3u_of_unwritten hl he hp fun hw => ?_
    obtain ⟨⟨v, hv⟩, hc⟩ := (forall_set3u_written_iff he hp).1 hw
    rcases hn with hn | ⟨c, hcu, hn⟩
    · simp [hn] at hv
    · obtain ⟨w, hw⟩ := hc c hcu
      simp [hn] at hw
  · have hu := List.nodup_singleton unit
    have hcs := channelsOfUnit_nodup unit
    refine ⟨_, exec_set3u_of_written hl he hp ((forall_set3u_written_iff he hp).2 ⟨hm, hc⟩), ?mode, ?pan,
      fun cls i => readPort_modeSet_other, fun k => phys_modeSet_other, ?otherUnit, ?trace, ?length, ?sel,
      writeAll_rstN _ _, writeAll_lifecycle _ _, writeAll_cfg _ _, writeAll_commands _ _, writeAll_responses _ _⟩
    case mode => exact fun v hv => mirrorRead_modeSet_mode he hp hu hcs (List.mem_singleton_self unit) hv
    case pan => exact fun c v hcu hv => mirrorRead_modeSet_pan he hp hu hcs (mem_channelsOfUnit_iff.2 hcu) hv
    case otherUnit =>
      refine fun k hk => phys_modeSet_other ((forall_mem_modeEntries he hp).2 ⟨fun u hu e => ?_, fun c hc e => ?_⟩)
      · rw [← e, physKey_div_of_chip, List.mem_singleton.1 hu] at hk
        exact hk rfl
      · rw [← e, physKey_div_of_chan, mem_channelsOfUnit_iff.1 hc] at hk
        exact hk rfl
    case trace => rw [trace_modeSet, modeRegisters_eq he, panRegisters_eq hp]; rfl
    case length =>
      rw [trace_modeSet, List.length_append, modeEvents_length, modeRegisters_eq he, panRegisters_eq hp,
        List.length_map, List.length_map, channelsOfUnit_length]
      rfl
    case sel =>
      obtain ⟨c, hlast, hcu⟩ := channelsOfUnit_getLast? unit
      rw [modeSet_sel hp hlast, hcu]

/-- Settles O29: a completed mode command is `modeSet`, here on both units and all channels. -/
theorem set3SetsModeAndPanningOfBothUnits : Obligations.Set3SetsModeAndPanningOfBothUnits := by
  unfold Obligations.Set3SetsModeAndPanningOfBothUnits
  refine fun enable en pan s he hp => ⟨fun hl => whenReady_of_uninitialized hl _, fun hl hn => ?_,
    fun hl hm hc => ?_⟩
  · refine exec_set3_of_unwritten hl he hp fun hw => ?_
    obtain ⟨hm, hc⟩ := (forall_set3_written_iff he hp).1 hw
    rcases hn with ⟨u, hn⟩ | ⟨c, hn⟩
    · obtain ⟨v, hv⟩ := hm u
      simp [hn] at hv
    · obtain ⟨w, hw⟩ := hc c
      simp [hn] at hw
  · refine ⟨_, exec_set3_of_written hl he hp ((forall_set3_written_iff he hp).2 ⟨hm, hc⟩), ?mode, ?pan,
      fun cls i => readPort_modeSet_other, fun k => phys_modeSet_other, ?trace, ?length, ?sel,
      writeAll_rstN _ _, writeAll_lifecycle _ _, writeAll_cfg _ _, writeAll_commands _ _, writeAll_responses _ _⟩
    case mode => exact fun u v hv => mirrorRead_modeSet_mode he hp units_nodup allChannels_nodup (mem_units u) hv
    case pan => exact fun c v hv => mirrorRead_modeSet_pan he hp units_nodup allChannels_nodup (mem_allChannels c) hv
    case trace => rw [trace_modeSet, modeRegisters_eq he, panRegisters_eq hp]; rfl
    case length =>
      rw [trace_modeSet, List.length_append, modeEvents_length, modeRegisters_eq he, panRegisters_eq hp,
        List.length_map, List.length_map, allChannels_length]
      rfl
    case sel => exact modeSet_sel hp (c := 35) (by decide)

end Sys2Proof
end

section
/-! PROOF. R168 and R169: `SET3` is `SET3U` on each unit, and mode and panning move together. -/

namespace Sys2Proof.Machine

/-! The order of writes to different registers. -/

/-- The entries after a list of writes to different registers do not depend on the order. -/
theorem readPort_writeAll_perm {ws us : List (LogicalReg × Byte)} (hn : (ws.map Prod.fst).Nodup) (hp : ws.Perm us)
    (d : MirrorClass) (j : Nat) (s : State) : readPort d j (writeAll ws s) = readPort d j (writeAll us s) := by
  by_cases h : ∃ w ∈ ws, d = w.1.cls ∧ j = w.1.index
  · obtain ⟨w, hw, rfl, rfl⟩ := h
    exact (writeAll_mirror hn hw s).trans
      (writeAll_mirror ((hp.map Prod.fst).nodup_iff.1 hn) (hp.mem_iff.1 hw) s).symm
  · have hno : ∀ w ∈ ws, ¬(d = w.1.cls ∧ j = w.1.index) := fun w hw he => h ⟨w, hw, he⟩
    rw [writeAll_readPort_other hno, writeAll_readPort_other fun w hw => hno w (hp.mem_iff.2 hw)]

/-- The same for the ghost file, under P6. -/
theorem phys_writeAll_perm {ws us : List (LogicalReg × Byte)} (hn : (ws.map Prod.fst).Nodup) (hp : ws.Perm us)
    {s : State} (hi : s.cfg.physInjective = true) (k : Nat) :
    (writeAll ws s).phys.read k = (writeAll us s).phys.read k := by
  by_cases h : ∃ w ∈ ws, w.1.physKey s.cfg = k
  · obtain ⟨w, hw, rfl⟩ := h
    have hl := writeAll_phys hn hi hw
    have hr := writeAll_phys ((hp.map Prod.fst).nodup_iff.1 hn) hi (hp.mem_iff.1 hw)
    rw [physRead, writeAll_cfg] at hl hr
    rw [hl, hr]
  · have hno : ∀ w ∈ ws, w.1.physKey s.cfg ≠ k := fun w hw he => h ⟨w, hw, he⟩
    rw [writeAll_phys_other hno, writeAll_phys_other fun w hw => hno w (hp.mem_iff.2 hw)]

/-- Canonical states that read alike at every port and in the chips have the same arrays. -/
theorem arrays_eq_of_reads {s t : State} (hs : s.canonical = true) (ht : t.canonical = true)
    (hr : ∀ d j, readPort d j s = readPort d j t) (hp : ∀ k, s.phys.read k = t.phys.read k) :
    s.chipm = t.chipm ∧ s.chanm = t.chanm ∧ s.opm = t.opm ∧ s.phys = t.phys := by
  simp only [State.canonical, Bool.and_eq_true] at hs ht
  obtain ⟨⟨⟨hs1, hs2⟩, hs3⟩, hs4⟩ := hs
  obtain ⟨⟨⟨ht1, ht2⟩, ht3⟩, ht4⟩ := ht
  exact ⟨Memory.ext_read hs1 ht1 (hr .chipm), Memory.ext_read hs2 ht2 (hr .chanm), Memory.ext_read hs3 ht3 (hr .opm),
    Memory.ext_read hs4 ht4 hp⟩

/-- Two orders of writes to different registers end in the same state, but for the trace and the selector. -/
theorem writeAll_perm_eq {ws us : List (LogicalReg × Byte)} (hn : (ws.map Prod.fst).Nodup) (hp : ws.Perm us) {s : State}
    (hc : s.canonical = true) (hi : s.cfg.physInjective = true) (hsel : (writeAll ws s).sel = (writeAll us s).sel) :
    { writeAll ws s with traceRev := (writeAll us s).traceRev } = writeAll us s := by
  obtain ⟨h1, h2, h3, h4⟩ := arrays_eq_of_reads (canonical_writeAll hc ws) (canonical_writeAll hc us)
    (fun d j => readPort_writeAll_perm hn hp d j s) (phys_writeAll_perm hn hp hi)
  exact State.ext_fields (by simp) (by simp) hsel (by simp) h1 h2 h3 h4 (by simp) rfl (by simp)

/-! `SET3` and the two `SET3U`. -/

theorem modeRegisters_append (cfg : Config) (us vs : List (BitVec 1)) :
    modeRegisters cfg (us ++ vs) = modeRegisters cfg us ++ modeRegisters cfg vs := by
  unfold modeRegisters
  split <;> simp

theorem panRegisters_append (cfg : Config) (cs ds : List (Fin 36)) :
    panRegisters cfg (cs ++ ds) = panRegisters cfg cs ++ panRegisters cfg ds := by
  unfold panRegisters
  split <;> simp

/-- The writes on two lists of registers are, up to order, those on the one and those on the other. -/
theorem modeWrites_append_perm (s : State) (enable : Bool) (ms ns ps qs : List LogicalReg) :
    (modeWrites s enable (ms ++ ns) (ps ++ qs)).Perm (modeWrites s enable ms ps ++ modeWrites s enable ns qs) := by
  simp only [modeWrites, List.map_append, List.append_assoc]
  exact (List.perm_append_comm_assoc _ _ _).append_left _

/-- A mode command writes the same bytes after writes to other registers. -/
theorem modeWrites_congr {s t : State} {enable : Bool} {ms ps : List LogicalReg} (hc : t.cfg = s.cfg)
    (hm : ∀ r ∈ ms ++ ps, mirrorRead r t = mirrorRead r s) : modeWrites t enable ms ps = modeWrites s enable ms ps := by
  rw [List.forall_mem_append] at hm
  unfold modeWrites
  rw [hc]
  congr 1
  · exact List.map_congr_left fun r hr => by rw [modeByte_congr (hm.1 r hr)]
  · exact List.map_congr_left fun r hr => by rw [modeByte_congr (hm.2 r hr)]

section
variable {s : State} {en : Fin 5} {pan : Fin 3} {us vs : List (BitVec 1)} {cs ds : List (Fin 36)} {enable : Bool}

/-- Mode commands on different units and channels write different registers. -/
theorem modeEntries_disjoint (he : posChip s.cfg s.cfg.opl3EnReg = some en) (hp : posChan s.cfg.panBase = some pan)
    (hu : (us ++ vs).Nodup) (hc : (cs ++ ds).Nodup) :
    ∀ r ∈ modeRegisters s.cfg vs ++ panRegisters s.cfg ds, ∀ q ∈ modeRegisters s.cfg us ++ panRegisters s.cfg cs,
      q ≠ r := by
  have hu' := (List.nodup_append.1 hu).2.2
  have hc' := (List.nodup_append.1 hc).2.2
  simp only [forall_mem_modeEntries he hp]
  refine ⟨fun v hv => ⟨fun u hu => ?_, fun c _ => by simp⟩, fun d hd => ⟨fun u _ => by simp, fun c hc => ?_⟩⟩
  · simpa using hu' u hu v hv
  · simpa using hc' c hc d hd

/-- A mode command after another on other units and channels: the writes of the one, then those of the other. -/
theorem modeSet_modeSet (he : posChip s.cfg s.cfg.opl3EnReg = some en) (hp : posChan s.cfg.panBase = some pan)
    (hu : (us ++ vs).Nodup) (hc : (cs ++ ds).Nodup) :
    modeSet vs ds enable (modeSet us cs enable s) =
      writeAll (modeWrites s enable (modeRegisters s.cfg us) (panRegisters s.cfg cs) ++
        modeWrites s enable (modeRegisters s.cfg vs) (panRegisters s.cfg ds)) s := by
  have hcfg : (modeSet us cs enable s).cfg = s.cfg := writeAll_cfg _ _
  have hsame : ∀ r ∈ modeRegisters s.cfg vs ++ panRegisters s.cfg ds,
      mirrorRead r (modeSet us cs enable s) = mirrorRead r s := fun r hr =>
    writeAll_mirror_other (fun w hw => modeEntries_disjoint he hp hu hc r hr w.1 (reg_mem_of_mem_modeWrites hw)) s
  rw [writeAll_append, modeSet, hcfg, modeWrites_congr hcfg hsame]
  rfl

/-- One mode command, or two on a division of its units and channels: the same end state but for the trace, when both
leave the selector at one level. -/
theorem modeSet_append (he : posChip s.cfg s.cfg.opl3EnReg = some en) (hp : posChan s.cfg.panBase = some pan)
    (hu : (us ++ vs).Nodup) (hc : (cs ++ ds).Nodup) (hs : s.canonical = true) (hi : s.cfg.physInjective = true)
    (hsel : (modeSet (us ++ vs) (cs ++ ds) enable s).sel = (modeSet vs ds enable (modeSet us cs enable s)).sel) :
    { modeSet (us ++ vs) (cs ++ ds) enable s with
        traceRev := (modeSet vs ds enable (modeSet us cs enable s)).traceRev } =
      modeSet vs ds enable (modeSet us cs enable s) := by
  rw [modeSet_modeSet he hp hu hc] at hsel ⊢
  have hperm := modeWrites_append_perm s enable (modeRegisters s.cfg us) (modeRegisters s.cfg vs)
    (panRegisters s.cfg cs) (panRegisters s.cfg ds)
  rw [← modeRegisters_append, ← panRegisters_append] at hperm
  exact writeAll_perm_eq (by rw [modeWrites_regs]; exact modeEntries_nodup he hp hu hc) hperm hs hi hsel

end

/-- P2, P3 and P6 of R9, and what P4 says of the mode mask. -/
theorem wf_parts {cfg : Config} (h : cfg.wf = true) :
    (∃ en, posChip cfg cfg.opl3EnReg = some en) ∧ (∃ pan, posChan cfg.panBase = some pan) ∧
      cfg.physInjective = true ∧ cfg.opl3EnMask ≠ 0 := by
  simp only [Config.wf, Bool.and_eq_true, Config.enRegKnown, Config.panBaseKnown, Config.masksOk, beq_iff_eq,
    Option.isSome_iff_exists] at h
  obtain ⟨⟨⟨⟨⟨⟨-, he⟩, hp⟩, hm, -⟩, -⟩, hi⟩, -⟩ := h
  refine ⟨he, hp, hi, fun hz => ?_⟩
  rw [hz] at hm
  exact absurd hm (by decide)

theorem units_eq_append : units = [0] ++ [1] := rfl

theorem allChannels_eq_append : allChannels = channelsOfUnit 0 ++ channelsOfUnit 1 := by decide

theorem modeSet_mirrorComplete {s : State} (h : s.mirrorComplete) (us : List (BitVec 1)) (cs : List (Fin 36))
    (enable : Bool) : (modeSet us cs enable s).mirrorComplete := kept_mirrorComplete.writeAll _ h

theorem modeSet_cfg (us : List (BitVec 1)) (cs : List (Fin 36)) (enable : Bool) (s : State) :
    (modeSet us cs enable s).cfg = s.cfg := writeAll_cfg _ _

theorem modeSet_lifecycle (us : List (BitVec 1)) (cs : List (Fin 36)) (enable : Bool) (s : State) :
    (modeSet us cs enable s).lifecycle = s.lifecycle := writeAll_lifecycle _ _

theorem modeSet_trace_length {s : State} {en : Fin 5} {pan : Fin 3} (he : posChip s.cfg s.cfg.opl3EnReg = some en)
    (hp : posChan s.cfg.panBase = some pan) (us : List (BitVec 1)) (cs : List (Fin 36)) (enable : Bool) :
    (modeSet us cs enable s).trace.length = s.trace.length + 2 * (us.length + cs.length) := by
  rw [trace_modeSet, List.length_append, modeEvents_length, modeRegisters_eq he, panRegisters_eq hp, List.length_map,
    List.length_map]

/-- The state after `SET3U` on unit 0 and then on unit 1. -/
def modeSetTwice (enable : Bool) (s : State) : State :=
  modeSet [1] (channelsOfUnit 1) enable (modeSet [0] (channelsOfUnit 0) enable s)

theorem written_of_mirrorComplete {s : State} (h : s.mirrorComplete) (r : LogicalReg) : written s r = true :=
  written_iff.2 (h r)

theorem execAll_set3u_units {s : State} {en : Fin 5} {pan : Fin 3} (hl : s.lifecycle = .ready) (hm : s.mirrorComplete)
    (he : posChip s.cfg s.cfg.opl3EnReg = some en) (hp : posChan s.cfg.panBase = some pan) (enable : Bool) :
    execAll [.set3u 0 enable, .set3u 1 enable] s = .next (modeSetTwice enable s) := by
  rw [execAll_cons (exec_set3u_of_written hl he hp fun r _ => written_of_mirrorComplete hm r), execAll_cons]
  · rfl
  · exact exec_set3u_of_written (en := en) (pan := pan) (by rwa [modeSet_lifecycle]) (by rwa [modeSet_cfg])
      (by rwa [modeSet_cfg]) fun r _ => written_of_mirrorComplete (modeSet_mirrorComplete hm _ _ _) r

/-- Both leave the selector at unit 1, that of channel 35. -/
theorem modeSet_units_eq {s : State} {en : Fin 5} {pan : Fin 3} (he : posChip s.cfg s.cfg.opl3EnReg = some en)
    (hp : posChan s.cfg.panBase = some pan) (hs : s.canonical = true) (hi : s.cfg.physInjective = true)
    (enable : Bool) :
    { modeSet units allChannels enable s with traceRev := (modeSetTwice enable s).traceRev } =
      modeSetTwice enable s := by
  have hu := units_nodup
  have hc := allChannels_nodup
  rw [units_eq_append] at hu ⊢
  rw [allChannels_eq_append] at hc ⊢
  refine modeSet_append he hp hu hc hs hi ?_
  rw [modeSet_sel hp (c := 35) (by decide)]
  exact (modeSet_sel (c := 35) (by rw [modeSet_cfg]; exact hp) (by decide)).symm

theorem modeSetTwice_trace_length {s : State} {en : Fin 5} {pan : Fin 3} (he : posChip s.cfg s.cfg.opl3EnReg = some en)
    (hp : posChan s.cfg.panBase = some pan) (enable : Bool) :
    (modeSetTwice enable s).trace.length = s.trace.length + 76 := by
  rw [modeSetTwice, modeSet_trace_length (by rw [modeSet_cfg]; exact he) (by rw [modeSet_cfg]; exact hp),
    modeSet_trace_length he hp, channelsOfUnit_length, channelsOfUnit_length]
  rfl

/-! Mode and panning after a mode command. -/

theorem withField_and (old mask : Byte) (enable : Bool) :
    withField old mask enable &&& mask = if enable then mask else 0 := by
  cases enable with
  | false => simp [withField, BitVec.and_assoc]
  | true =>
    apply BitVec.eq_of_getElem_eq
    intro i hi
    simp only [withField, BitVec.getElem_and, BitVec.getElem_or, BitVec.getElem_not, if_true]
    cases mask[i] <;> simp

theorem fieldSet_withField {mask : Byte} (h : mask ≠ 0) (old : Byte) (enable : Bool) :
    fieldSet (withField old mask enable) mask = enable := by
  rw [fieldSet, withField_and]
  cases enable with
  | false => simp
  | true => simpa using h

end Sys2Proof.Machine

namespace Sys2Proof

open Sys2Proof.Machine

/-- Settles O30: both runs make the same 38 writes to different registers in another order, and both end at unit 1. -/
theorem set3EqualsSet3uOnEachUnit : Obligations.Set3EqualsSet3uOnEachUnit := by
  unfold Obligations.Set3EqualsSet3uOnEachUnit
  intro enable s hwf hs hl hm
  obtain ⟨⟨en, he⟩, ⟨pan, hp⟩, hi, -⟩ := wf_parts hwf
  refine ⟨_, _, exec_set3_of_written hl he hp fun r _ => written_of_mirrorComplete hm r,
    execAll_set3u_units hl hm he hp enable, modeSet_units_eq he hp hs hi enable, ?_⟩
  rw [modeSet_trace_length he hp, modeSetTwice_trace_length he hp, allChannels_length]
  rfl

/-- Settles O31: the entries the command leaves have the enable value in their masked field, and that field is what is
read. -/
theorem modeAndPanningMoveTogether : Obligations.ModeAndPanningMoveTogether := by
  unfold Obligations.ModeAndPanningMoveTogether
  intro unit enable s t hwf h
  obtain ⟨⟨en, he⟩, ⟨pan, hp⟩, -, hmask⟩ := wf_parts hwf
  have hl := (whenReady_next (k := setMode [unit] (channelsOfUnit unit) enable s) h).1
  by_cases hw : ∀ r ∈ entriesRead s.cfg (.set3u unit enable), written s r = true
  case neg =>
    rw [exec_set3u_of_unwritten hl he hp hw] at h
    cases h
  case pos =>
    rw [exec_set3u_of_written hl he hp hw] at h
    obtain rfl := next_inj h
    obtain ⟨⟨v, hv⟩, hpan⟩ := (forall_set3u_written_iff he hp).1 hw
    have hu := List.nodup_singleton unit
    have hcs := channelsOfUnit_nodup unit
    refine ⟨?query, fun pan' c hp' hc => ?panning⟩
    case query =>
      have hq := unitEnabled_of_read (pos := en) (by rw [modeSet_cfg]; exact he)
        (mirrorRead_modeSet_mode (enable := enable) he hp hu hcs (List.mem_singleton_self unit) hv)
      rw [modeSet_cfg, fieldSet_withField hmask] at hq
      exact exec_q3u_of_enabled ((modeSet_lifecycle _ _ _ _).trans hl) hq
    case panning =>
      obtain rfl : pan = pan' := Option.some.inj (hp.symm.trans hp')
      obtain ⟨w, hw⟩ := hpan c hc
      exact ⟨_, mirrorRead_modeSet_pan he hp hu hcs (mem_channelsOfUnit_iff.2 hc) hw, withField_and _ _ _⟩

end Sys2Proof
end

section
/-! PROOF. What the block computes from: its own registers, the parameters and the responses, and neither the pins, nor
the chips, nor the trace. -/

namespace Sys2Proof.Machine

/-- The two states agree in everything but the pin latches, the ghost file, the trace and the issued commands. -/
structure SameInside (s u : State) : Prop where
  cfg : u.cfg = s.cfg
  lifecycle : u.lifecycle = s.lifecycle
  chipm : u.chipm = s.chipm
  chanm : u.chanm = s.chanm
  opm : u.opm = s.opm
  responses : u.responses = s.responses

/-- Both outcomes are the same violation, or both are next states that agree inside. -/
inductive SameOutcome : Result → Result → Prop
  | next {t u : State} (h : SameInside t u) : SameOutcome (.next t) (.next u)
  | fault (f : Fault) : SameOutcome (.fault f) (.fault f)

theorem SameInside.refl (s : State) : SameInside s s := ⟨rfl, rfl, rfl, rfl, rfl, rfl⟩

section
variable {s u : State}

theorem SameInside.mirrorRead (h : SameInside s u) (r : LogicalReg) : mirrorRead r u = mirrorRead r s :=
  readPort_congr h.chipm h.chanm h.opm _ _

theorem SameInside.written (h : SameInside s u) : written u = written s := by
  funext r
  rw [Machine.written, Machine.written, h.mirrorRead]

theorem SameInside.readEntry (h : SameInside s u) (r : LogicalReg) : readEntry r u = readEntry r s := by
  rw [Machine.readEntry, Machine.readEntry, h.mirrorRead]

theorem SameInside.respond (h : SameInside s u) (v : Byte) : SameInside (respond v s) (respond v u) :=
  ⟨h.cfg, h.lifecycle, h.chipm, h.chanm, h.opm, by rw [respond_responses, respond_responses, h.responses]⟩

theorem SameInside.writeReg (h : SameInside s u) (r : LogicalReg) (v : Byte) :
    SameInside (writeReg r v s) (writeReg r v u) := by
  cases r <;> constructor <;> simp [LogicalReg.cls, h.cfg, h.lifecycle, h.chipm, h.chanm, h.opm, h.responses]

theorem SameInside.writeAll (h : SameInside s u) (ws : List (LogicalReg × Byte)) :
    SameInside (writeAll ws s) (writeAll ws u) := by
  induction ws generalizing s u with
  | nil => exact h
  | cons w ws ih => exact ih (h.writeReg w.1 w.2)

theorem SameInside.pulse (h : SameInside s u) (b : BitVec 1) : SameInside (pulse b s) (pulse b u) :=
  ⟨h.cfg, h.lifecycle, h.chipm, h.chanm, h.opm, h.responses⟩

theorem SameInside.emitSel (h : SameInside s u) (b : BitVec 1) : SameInside (emitSel b s) (emitSel b u) :=
  ⟨h.cfg, h.lifecycle, h.chipm, h.chanm, h.opm, h.responses⟩

theorem SameInside.zeroed (h : SameInside s u) (rs : List LogicalReg) : SameInside (zeroed rs s) (zeroed rs u) :=
  (((h.pulse 0).pulse 1).writeAll _).emitSel 0

theorem SameInside.whenReady (h : SameInside s u) {k l : Result} (hk : SameOutcome k l) :
    SameOutcome (whenReady s k) (whenReady u l) := by
  cases hl : s.lifecycle with
  | ready => rwa [whenReady_of_ready hl, whenReady_of_ready (h.lifecycle.trans hl)]
  | uninitialized =>
    rw [whenReady_of_uninitialized hl, whenReady_of_uninitialized (h.lifecycle.trans hl)]
    exact .fault _

theorem SameInside.getLocated (h : SameInside s u) (x : Except Fault LogicalReg) :
    SameOutcome (getLocated x s) (getLocated x u) := by
  cases x with
  | error f => exact .fault f
  | ok r =>
    cases hr : Machine.mirrorRead r s with
    | none =>
      rw [getLocated_of_unread hr, getLocated_of_unread ((h.mirrorRead r).trans hr)]
      exact .fault _
    | some v =>
      rw [getLocated_of_read hr, getLocated_of_read ((h.mirrorRead r).trans hr)]
      exact .next (h.respond v)

theorem SameInside.setLocated (h : SameInside s u) (x : Except Fault LogicalReg) (v : Byte) :
    SameOutcome (setLocated x v s) (setLocated x v u) := by
  cases x with
  | error f => exact .fault f
  | ok r => exact .next (h.writeReg r v)

theorem SameInside.unitEnabled (h : SameInside s u) (unit : BitVec 1) : unitEnabled unit u = unitEnabled unit s := by
  simp only [Machine.unitEnabled, h.cfg, h.readEntry]

theorem SameInside.setMode (h : SameInside s u) {us : List (BitVec 1)} {cs : List (Fin 36)} (hu : us.Nodup)
    (hc : cs.Nodup) (enable : Bool) : SameOutcome (setMode us cs enable s) (setMode us cs enable u) := by
  cases he : posChip s.cfg s.cfg.opl3EnReg with
  | none =>
    simp only [Machine.setMode, h.cfg, he]
    exact .fault _
  | some en =>
    cases hp : posChan s.cfg.panBase with
    | none =>
      simp only [Machine.setMode, h.cfg, he, hp]
      exact .fault _
    | some pan =>
      rw [setMode_eq hu hc he hp, setMode_eq hu hc (h.cfg ▸ he) (h.cfg ▸ hp), h.cfg, h.written,
        modeWrites_congr h.cfg fun r _ => h.mirrorRead r]
      split
      · exact .next (h.writeAll _)
      · exact .fault _

/-- What a command does inside the block depends on the inside of the block only. -/
theorem SameInside.exec (h : SameInside s u) (i : Instr) : SameOutcome (exec i s) (exec i u) := by
  cases i with
  | begin =>
    cases hl : s.lifecycle with
    | ready =>
      rw [exec_begin_of_ready hl, exec_begin_of_ready (h.lifecycle.trans hl)]
      exact .fault _
    | uninitialized =>
      rw [exec_begin_of_uninitialized hl, exec_begin_of_uninitialized (h.lifecycle.trans hl)]
      exact .next ⟨h.cfg, rfl, h.chipm, h.chanm, h.opm, h.responses⟩
  | reset =>
    cases hl : s.lifecycle with
    | ready =>
      rw [exec_reset_of_ready hl, exec_reset_of_ready (h.lifecycle.trans hl)]
      exact .next (h.zeroed allRegisters)
    | uninitialized =>
      rw [exec_of_uninitialized (by simp) hl, exec_of_uninitialized (by simp) (h.lifecycle.trans hl)]
      exact .fault _
  | getchip unit reg =>
    refine h.whenReady (k := Machine.getLocated _ s) (l := Machine.getLocated _ u) ?_
    rw [h.cfg]
    exact h.getLocated _
  | getchan base channel => exact h.whenReady (h.getLocated (locateChan base channel))
  | getop base channel op => exact h.whenReady (h.getLocated (locateOp base channel op))
  | setchip unit reg value =>
    refine h.whenReady (k := Machine.setLocated _ value s) (l := Machine.setLocated _ value u) ?_
    rw [h.cfg]
    exact h.setLocated _ value
  | setchan base channel value => exact h.whenReady (h.setLocated (locateChan base channel) value)
  | setop base channel op value => exact h.whenReady (h.setLocated (locateOp base channel op) value)
  | q3u unit =>
    refine h.whenReady ?_
    rw [h.unitEnabled]
    split
    · exact .fault _
    · exact .next (h.respond _)
  | q3 =>
    refine h.whenReady ?_
    rw [h.unitEnabled, h.unitEnabled]
    split
    · exact .fault _
    · exact .fault _
    · exact .next (h.respond _)
  | set3u unit enable => exact h.whenReady (h.setMode (List.nodup_singleton unit) (channelsOfUnit_nodup unit) enable)
  | set3 enable => exact h.whenReady (h.setMode units_nodup allChannels_nodup enable)

end

section
variable {x y : Result}

/-- An outcome that is the same as another is no refusal. -/
theorem SameOutcome.ne_refused (h : SameOutcome x y) (r : Refusal) : x ≠ .refused r := by
  cases h <;> simp

theorem SameOutcome.eq_fault {f : Fault} (h : SameOutcome x y) (hx : x = .fault f) : y = .fault f := by
  cases h with
  | next => cases hx
  | fault => exact hx

theorem SameOutcome.exists_next {t : State} (h : SameOutcome x y) (hx : x = .next t) :
    ∃ u, y = .next u ∧ SameInside t u := by
  cases h with
  | next h =>
    obtain rfl := next_inj hx
    exact ⟨_, rfl, h⟩
  | fault => cases hx

end

theorem exec_ne_refused (i : Instr) (s : State) (r : Refusal) : exec i s ≠ .refused r :=
  ((SameInside.refl s).exec i).ne_refused r

theorem step_ne_refused (s : State) (r : Refusal) : step s ≠ .refused r := by
  cases hc : s.commands with
  | nil => simp [step_of_idle hc]
  | cons w rest =>
    by_cases hd : ∃ i, decode w = .command i
    · obtain ⟨i, hi⟩ := hd
      rw [step_of_command hc hi]
      exact exec_ne_refused i _ r
    · simp [step_of_reserved hc (not_exists.1 hd)]

end Sys2Proof.Machine

namespace Sys2Proof

open Sys2Proof.Machine

/-- Settles O35: every outcome of a command is a next state or a violation, and so is that of a reserved word. -/
theorem nothingIsRefused : Obligations.NothingIsRefused := by
  unfold Obligations.NothingIsRefused
  exact fun i s r => ⟨exec_ne_refused i s r, step_ne_refused s r⟩

/-- Settles O37: the two states agree inside, so their outcomes do. -/
theorem pinsChipsAndTraceAreNeverRead : Obligations.PinsChipsAndTraceAreNeverRead := by
  unfold Obligations.PinsChipsAndTraceAreNeverRead
  intro i s a b p es
  have h : SameInside s { s with sel := a, rstN := b, phys := p, traceRev := es } := ⟨rfl, rfl, rfl, rfl, rfl, rfl⟩
  refine ⟨fun f hf => (h.exec i).eq_fault hf, fun t ht => ?_⟩
  obtain ⟨u, hu, hsame⟩ := (h.exec i).exists_next ht
  exact ⟨u, hu, hsame.chipm, hsame.chanm, hsame.opm, hsame.lifecycle, hsame.responses⟩

end Sys2Proof
end

section
/-! PROOF. R181 and R183: the violation a command stops with, and that none is left inside the caller contract (R218).
-/

namespace Sys2Proof.Machine

/-- The outcome is the violation, if there is one, and a next state if there is none. -/
inductive Decided : Result → Option Fault → Prop
  | stops (f : Fault) : Decided (.fault f) (some f)
  | completes (t : State) : Decided (.next t) none

section
variable {x : Result} {v : Option Fault}

theorem Decided.eq_fault_iff (h : Decided x v) (f : Fault) : x = .fault f ↔ v = some f := by
  cases h <;> simp

theorem Decided.exists_next_iff (h : Decided x v) : (∃ t, x = .next t) ↔ v = none := by
  cases h <;> simp

end

/-- The violation of an address that names no register. -/
def addressViolation : Except Fault LogicalReg → Option Fault
  | .ok _ => none
  | .error f => some f

/-- V9 for the entries a command reads. -/
def entriesViolation (s : State) (rs : List LogicalReg) : Option Fault :=
  if rs.all (written s) then none else some .unwrittenMirrorRead

section
variable {s : State}

theorem entriesViolation_of_written {rs : List LogicalReg} (h : ∀ r ∈ rs, written s r = true) :
    entriesViolation s rs = none := if_pos (List.all_eq_true.2 h)

theorem entriesViolation_of_unwritten {rs : List LogicalReg} (h : ¬∀ r ∈ rs, written s r = true) :
    entriesViolation s rs = some .unwrittenMirrorRead := if_neg fun ha => h (List.all_eq_true.1 ha)

/-- A command that completes when its entries are written, and is V9 when one is not, is decided by V9. -/
theorem decided_of_entries {x : Result} {rs : List LogicalReg}
    (hw : (∀ r ∈ rs, written s r = true) → ∃ t, x = .next t)
    (hn : (¬∀ r ∈ rs, written s r = true) → x = .fault .unwrittenMirrorRead) :
    Decided x (entriesViolation s rs) := by
  by_cases h : ∀ r ∈ rs, written s r = true
  · obtain ⟨t, rfl⟩ := hw h
    rw [entriesViolation_of_written h]
    exact .completes t
  · rw [hn h, entriesViolation_of_unwritten h]
    exact .stops _

theorem not_written_iff {r : LogicalReg} : ¬written s r = true ↔ mirrorRead r s = none := by
  simp [written]

theorem getLocated_decided {x : Except Fault LogicalReg} {v : Option Fault} (hv : addressViolation x = v) :
    Decided (getLocated x s) (v.or (entriesViolation s (located x))) := by
  subst hv
  cases x with
  | error f => exact .stops f
  | ok r =>
    refine decided_of_entries (rs := [r]) (fun hw => ?_) fun hn => ?_
    · obtain ⟨v, hr⟩ := written_iff.1 (hw _ (List.mem_singleton_self _))
      exact ⟨_, getLocated_of_read hr⟩
    · rw [List.forall_mem_singleton, not_written_iff] at hn
      exact getLocated_of_unread hn

theorem setLocated_decided {x : Except Fault LogicalReg} {v : Option Fault} (hv : addressViolation x = v)
    (value : Byte) : Decided (setLocated x value s) (v.or (entriesViolation s [])) := by
  subst hv
  cases x with
  | error f => exact .stops f
  | ok r => exact .completes _

theorem addressViolation_locateChip (cfg : Config) (unit : BitVec 1) (reg : BitVec 9) :
    addressViolation (locateChip cfg unit reg) = recognitionViolation cfg (.getchip unit reg) := by
  cases hp : posChip cfg reg with
  | none => simp [locateChip_of_posChip_none hp, addressViolation, recognitionViolation, hp]
  | some pos => simp [locateChip_of_posChip hp, addressViolation, recognitionViolation, hp]

theorem addressViolation_locateChan (cfg : Config) (base : Byte) (channel : BitVec 6) :
    addressViolation (locateChan base channel) =
      (rangeViolation channel).or (recognitionViolation cfg (.getchan base channel)) := by
  by_cases hc : channel.toNat < 36
  · have hr : rangeViolation channel = none := if_neg (by omega)
    cases hp : posChan base with
    | none => simp [hr, locateChan_of_posChan_none hc hp, addressViolation, recognitionViolation, hp]
    | some pos => simp [hr, locateChan_of_posChan hc hp, addressViolation, recognitionViolation, hp]
  · have hr : rangeViolation channel = some .channelOutOfRange := if_pos (by omega)
    rw [hr, locateChan_of_range (by omega)]
    rfl

theorem addressViolation_locateOp (cfg : Config) (base : Byte) (channel : BitVec 6) (op : BitVec 1) :
    addressViolation (locateOp base channel op) =
      (rangeViolation channel).or (recognitionViolation cfg (.getop base channel op)) := by
  by_cases hc : channel.toNat < 36
  · have hr : rangeViolation channel = none := if_neg (by omega)
    cases hp : posOp base with
    | none => simp [hr, locateOp_of_posOp_none hc hp, addressViolation, recognitionViolation, hp]
    | some pos => simp [hr, locateOp_of_posOp hc hp, addressViolation, recognitionViolation, hp]
  · have hr : rangeViolation channel = some .channelOutOfRange := if_pos (by omega)
    rw [hr, locateOp_of_range (by omega)]
    rfl

/-- With P2, `Q3U` stops exactly if the mode entry of the unit is unwritten. -/
theorem exec_q3u_decided (hl : s.lifecycle = .ready) {en : Fin 5} (he : posChip s.cfg s.cfg.opl3EnReg = some en)
    (unit : BitVec 1) : Decided (exec (.q3u unit) s) (entriesViolation s (modeRegisters s.cfg [unit])) := by
  rw [modeRegisters_eq he]
  refine decided_of_entries (rs := [.chip unit en]) (fun hw => ?_) fun hn => ?_
  · obtain ⟨v, hr⟩ := written_iff.1 (hw _ (List.mem_singleton_self _))
    exact ⟨_, exec_q3u_of_enabled hl (unitEnabled_of_read he hr)⟩
  · rw [List.forall_mem_singleton, not_written_iff] at hn
    exact exec_q3u_of_error hl (unitEnabled_of_unread he hn)

/-- With P2, `Q3` stops exactly if the mode entry of either unit is unwritten. -/
theorem exec_q3_decided (hl : s.lifecycle = .ready) {en : Fin 5} (he : posChip s.cfg s.cfg.opl3EnReg = some en) :
    Decided (exec .q3 s) (entriesViolation s (modeRegisters s.cfg units)) := by
  rw [modeRegisters_eq he]
  refine decided_of_entries (fun hw => ?_) fun hn => ?_
  · rw [List.forall_mem_map] at hw
    obtain ⟨v, h0⟩ := written_iff.1 (hw 0 (mem_units 0))
    obtain ⟨w, h1⟩ := written_iff.1 (hw 1 (mem_units 1))
    exact ⟨_, exec_q3_of_enabled hl (unitEnabled_of_read he h0) (unitEnabled_of_read he h1)⟩
  · simp only [List.forall_mem_map, not_forall, not_written_iff] at hn
    obtain ⟨u, -, hr⟩ := hn
    rcases BitVec.eq_zero_or_eq_one u with rfl | rfl
    · exact exec_q3_of_unread hl he (.inl hr)
    · exact exec_q3_of_unread hl he (.inr hr)

theorem firstViolation_of_ready (hl : s.lifecycle = .ready) {i : Instr} (hi : i ≠ .begin) :
    firstViolation i s =
      ((channelViolation i).or (recognitionViolation s.cfg i)).or (entriesViolation s (entriesRead s.cfg i)) := by
  have h : lifecycleViolation i s = none := by simp [lifecycleViolation, hl, hi]
  rw [firstViolation, h, Option.none_or]
  rfl

/-- The violations of a Ready command but `BEGIN`, for parameters that pass P2 and P3. -/
theorem exec_decided_of_ready (hl : s.lifecycle = .ready) {en : Fin 5} {pan : Fin 3}
    (he : posChip s.cfg s.cfg.opl3EnReg = some en) (hp : posChan s.cfg.panBase = some pan) {i : Instr}
    (hi : i ≠ .begin) : Decided (exec i s) (firstViolation i s) := by
  rw [firstViolation_of_ready hl hi]
  cases i with
  | begin => exact absurd rfl hi
  | reset =>
    rw [exec_reset_of_ready hl]
    exact .completes _
  | getchip unit reg =>
    rw [exec_getchip_of_ready hl]
    exact getLocated_decided (addressViolation_locateChip s.cfg unit reg)
  | getchan base channel =>
    rw [exec_getchan_of_ready hl]
    exact getLocated_decided (addressViolation_locateChan s.cfg base channel)
  | getop base channel op =>
    rw [exec_getop_of_ready hl]
    exact getLocated_decided (addressViolation_locateOp s.cfg base channel op)
  | setchip unit reg value =>
    rw [exec_setchip_of_ready hl]
    exact setLocated_decided (addressViolation_locateChip s.cfg unit reg) value
  | setchan base channel value =>
    rw [exec_setchan_of_ready hl]
    exact setLocated_decided (addressViolation_locateChan s.cfg base channel) value
  | setop base channel op value =>
    rw [exec_setop_of_ready hl]
    exact setLocated_decided (addressViolation_locateOp s.cfg base channel op) value
  | q3u unit => exact exec_q3u_decided hl he unit
  | q3 => exact exec_q3_decided hl he
  | set3u unit enable =>
    exact decided_of_entries (fun hw => ⟨_, exec_set3u_of_written hl he hp hw⟩) (exec_set3u_of_unwritten hl he hp)
  | set3 enable =>
    exact decided_of_entries (fun hw => ⟨_, exec_set3_of_written hl he hp hw⟩) (exec_set3_of_unwritten hl he hp)

/-- R183, for every command, state and lifecycle. -/
theorem exec_decided (hwf : s.cfg.wf = true) (i : Instr) : Decided (exec i s) (firstViolation i s) := by
  obtain ⟨⟨en, he⟩, ⟨pan, hp⟩, -, -⟩ := wf_parts hwf
  by_cases hi : i = .begin
  · subst hi
    cases hl : s.lifecycle with
    | ready =>
      have h : firstViolation .begin s = some .alreadyReady := by simp [firstViolation, lifecycleViolation, hl]
      rw [exec_begin_of_ready hl, h]
      exact .stops _
    | uninitialized =>
      have h : firstViolation .begin s = none := by
        simp [firstViolation, lifecycleViolation, hl, channelViolation, recognitionViolation, unwrittenViolation,
          entriesRead]
      rw [exec_begin_of_uninitialized hl, h]
      exact .completes _
  · cases hl : s.lifecycle with
    | ready => exact exec_decided_of_ready hl he hp hi
    | uninitialized =>
      have h : firstViolation i s = some .notReady := by simp [firstViolation, lifecycleViolation, hl, hi]
      rw [exec_of_uninitialized hi hl, h]
      exact .stops _

/-! Which violations a command can meet. -/

theorem lifecycleViolation_mem {i : Instr} {f : Fault} (h : lifecycleViolation i s = some f) : f ∈ mayRaise i := by
  cases hl : s.lifecycle <;> cases i <;> simp_all [lifecycleViolation, mayRaise]

theorem rangeViolation_eq_some {channel : BitVec 6} {f : Fault} (h : rangeViolation channel = some f) :
    f = .channelOutOfRange := by
  unfold rangeViolation at h
  split at h
  · exact (Option.some.inj h).symm
  · cases h

theorem channelViolation_mem {i : Instr} {f : Fault} (h : channelViolation i = some f) : f ∈ mayRaise i := by
  cases i with
  | getchan | setchan | getop | setop => simp [rangeViolation_eq_some h, mayRaise]
  | begin | reset | getchip | setchip | q3u | q3 | set3u | set3 => cases h

theorem recognitionViolation_mem {cfg : Config} {i : Instr} {f : Fault} (h : recognitionViolation cfg i = some f) :
    f ∈ mayRaise i := by
  cases i with
  | getchip | setchip | getchan | setchan | getop | setop =>
    simp only [recognitionViolation, Option.ite_none_right_eq_some, Option.some.injEq] at h
    simp [← h.2, mayRaise]
  | begin | reset | q3u | q3 | set3u | set3 => cases h

theorem unwrittenViolation_mem {i : Instr} {f : Fault} (h : unwrittenViolation i s = some f) : f ∈ mayRaise i := by
  simp only [unwrittenViolation, Option.ite_none_left_eq_some, Option.some.injEq] at h
  obtain ⟨hw, rfl⟩ := h
  cases i with
  | begin | reset | setchip | setchan | setop => exact absurd rfl hw
  | getchip | getchan | getop | q3u | q3 | set3u | set3 => simp [mayRaise]

theorem firstViolation_mem {i : Instr} {f : Fault} (h : firstViolation i s = some f) : f ∈ mayRaise i := by
  simp only [firstViolation, Option.or_eq_some_iff] at h
  rcases h with ((h | ⟨-, h⟩) | ⟨-, h⟩) | ⟨-, h⟩
  · exact lifecycleViolation_mem h
  · exact channelViolation_mem h
  · exact recognitionViolation_mem h
  · exact unwrittenViolation_mem h

/-! The caller contract. -/

/-- Inside the contract the channel is in range. -/
theorem channelViolation_of_inContract {cfg : Config} {i : Instr} (h : i.inContract cfg = true) :
    channelViolation i = none := by
  cases i with
  | getchan | setchan | getop | setop =>
    simp only [Instr.inContract, Bool.and_eq_true, decide_eq_true_eq] at h
    exact if_neg (by omega)
  | begin | reset | getchip | setchip | q3u | q3 | set3u | set3 => rfl

/-- Inside the contract the register or base is recognised. -/
theorem recognitionViolation_of_inContract {cfg : Config} {i : Instr} (h : i.inContract cfg = true) :
    recognitionViolation cfg i = none := by
  cases i with
  | getchip | setchip | getchan | setchan | getop | setop =>
    simp_all [Instr.inContract, recognitionViolation, Option.isSome_iff_ne_none]
  | begin | reset | q3u | q3 | set3u | set3 => rfl

theorem firstViolation_of_inContract (hl : s.lifecycle = .ready) (hm : s.mirrorComplete) {i : Instr} (hi : i ≠ .begin)
    (hc : i.inContract s.cfg = true) : firstViolation i s = none := by
  rw [firstViolation_of_ready hl hi, channelViolation_of_inContract hc, recognitionViolation_of_inContract hc,
    entriesViolation_of_written fun r _ => written_of_mirrorComplete hm r]
  rfl

end

end Sys2Proof.Machine

namespace Sys2Proof

open Sys2Proof.Machine

/-- Settles O32: the outcome is decided by the first violation, command by command. -/
theorem firstViolationDecides : Obligations.FirstViolationDecides := by
  unfold Obligations.FirstViolationDecides
  exact fun i s hwf => ⟨(exec_decided hwf i).eq_fault_iff, (exec_decided hwf i).exists_next_iff⟩

/-- Settles O33: the violation is the first one, and each of its four kinds is listed where it can hold. -/
theorem onlyListedViolations : Obligations.OnlyListedViolations := by
  unfold Obligations.OnlyListedViolations
  exact fun i s f hwf h => firstViolation_mem (((exec_decided hwf i).eq_fault_iff f).1 h)

/-- Settles O34: inside the contract, with the mirror written, there is no first violation, and no effect unwrites an
entry. -/
theorem contractSuffices : Obligations.ContractSuffices := by
  unfold Obligations.ContractSuffices
  intro i s hwf hl hm hi hc
  obtain ⟨t, ht⟩ := (exec_decided hwf i).exists_next_iff.2 (firstViolation_of_inContract hl hm hi hc)
  exact ⟨t, ht, kept_mirrorComplete.exec hm ht⟩

end Sys2Proof
end
